-- ==== Sys2Proof/Word.lean ====
section
/-! DEFINITION. The word types of the GF(256) engine: port words and coefficient bytes. -/

namespace Sys2Proof

/-- A 32-bit port value or command word (R40, R55). Bit 0 is the least significant (R10). -/
abbrev Word := BitVec 32

/-- A field element, "integer 0-255" (R12), and one byte of a sequence (R13). -/
abbrev Byte := BitVec 8

/-- A byte sequence; element 0 is the most significant (R13, R51). -/
abbrev ByteSeq := List Byte

end Sys2Proof
end

