-- ==== Sys2Proof/Config.lean ====
section
/-! DEFINITION. The parameters a model takes (R8) with the spec's defaults. -/

namespace Sys2Proof

/-- `HOST_BYTE_ORDER` (R8, R47): read by no rule. -/
inductive ByteOrder where
  | little
  | big
  deriving DecidableEq, Repr

/-- The parameters of R8 from which the tables are computed (I3, D3). -/
structure FieldParams where
  /-- `PRIM_POLY`, the field's reduction polynomial as a 9-bit number. -/
  primPoly : Nat
  /-- `ALPHA`, the generator whose powers fill the Exp table. -/
  alpha : Byte
  deriving DecidableEq, Repr

/-- `TABLE_SIZE` (R8): entries in each of Exp and Log, 256 by R20 to R22 (log entry 5). -/
abbrev tableSize : Nat := 256

/-- The parameters of R8. -/
structure Config where
  /-- `PRIM_POLY` and `ALPHA`. -/
  field : FieldParams
  /-- `NPOLY`, the number of polynomial registers, at most 4 (I4, D6). -/
  npoly : Nat
  /-- `PMAX`, the greatest length of a polynomial. -/
  pmax : Nat
  /-- `SMAX`, the capacity of the staging buffer in bytes. -/
  smax : Nat
  /-- `EMAX`, the capacity of the EC buffer in bytes (R30; RSENC tests it by D7, log entry 17). -/
  emax : Nat
  /-- `BASE`, the platform address of the port window (R40). -/
  base : Nat
  /-- `HOST_BYTE_ORDER` (R47). -/
  hostByteOrder : ByteOrder
  deriving DecidableEq, Repr

/-- The defaults of R8 for the field: `x^8 + x^4 + x^3 + x^2 + 1` and 2. -/
def FieldParams.standard : FieldParams where
  primPoly := 0x11D
  alpha := 2

/-- The defaults of R8. `BASE` and `HOST_BYTE_ORDER` have none in the spec:
0 and little-endian are a DESIGN CHOICE (log entry 4). -/
def Config.standard : Config where
  field := FieldParams.standard
  npoly := 4
  pmax := 256
  smax := 256
  emax := 255
  base := 0
  hostByteOrder := .little

end Sys2Proof
end

