-- ==== Sys2Proof/Syntax.lean ====
section
/-! DEFINITION. The thirteen commands of GFE-1 as syntax: one constructor for each row of
spec/opcode_table.json, operands as the assembler of R63 writes them. -/

namespace Sys2Proof

/-- A polynomial register number, `P0` to `P3` (R27, R56). -/
inductive PReg where
  | p0
  | p1
  | p2
  | p3
  deriving DecidableEq, Repr

/-- A command (R58). Immediates are integers (R59); `Instr.wf` says which values an encoding admits. -/
inductive Instr where
  /-- `GLOG n` (R80). -/
  | glog (n : Int)
  /-- `GEXP n` (R81). -/
  | gexp (n : Int)
  /-- `SCLR` (R88). -/
  | sclr
  /-- `SPUSH b` (R89). -/
  | spush (b : Nat)
  /-- `PNEW Pd, k` (R90). -/
  | pnew (rd : PReg) (k : Nat)
  /-- `PLEN Pa` (R91). -/
  | plen (ra : PReg)
  /-- `PGET Pa, k` (R92). -/
  | pget (ra : PReg) (k : Nat)
  /-- `PMUL Pd, Pa, Pb` (R102). -/
  | pmul (rd ra rb : PReg)
  /-- `PMOD Pd, Pa, Pb`: `Pa` the dividend, `Pb` the divisor (R106). -/
  | pmod (rd ra rb : PReg)
  /-- `GENP Pd, n` (R110). -/
  | genp (rd : PReg) (n : Nat)
  /-- `RSENC n` (R122). -/
  | rsenc (n : Nat)
  /-- `ELEN` (R123). -/
  | elen
  /-- `EGET k` (R124). -/
  | eget (k : Nat)
  deriving DecidableEq, Repr

end Sys2Proof
end

