-- ==== Sys2Proof/WellFormed.lean ====
section
/-! DEFINITION. Which operand values a command may have: the ranges of R59 and R63. -/

namespace Sys2Proof

/-- The range of a signed immediate, `sext(imm16)` (R59). -/
def signedImm (n : Int) : Bool := decide (-32768 ≤ n ∧ n ≤ 32767)

/-- The range of an unsigned count or index, `imm16` (R59). -/
def unsignedImm (k : Nat) : Bool := decide (k ≤ 65535)

/-- The range of an unsigned byte, `imm16[7:0]` (R59). -/
def byteImm (b : Nat) : Bool := decide (b ≤ 255)

/-- Every operand lies in the range of R63. -/
def Instr.wf : Instr → Bool
  | .glog n => signedImm n
  | .gexp n => signedImm n
  | .sclr => true
  | .spush b => byteImm b
  | .pnew _ k => unsignedImm k
  | .plen _ => true
  | .pget _ k => unsignedImm k
  | .pmul _ _ _ => true
  | .pmod _ _ _ => true
  | .genp _ n => byteImm n
  | .rsenc n => byteImm n
  | .elen => true
  | .eget k => unsignedImm k

end Sys2Proof
end

