-- ==== Sys2Proof/Decode.lean ====
section
/-! DEFINITION. The command word: its fields (R56), the opcode map (R58), a decoder total on all
2^32 words that rejects by name (R57, R61), and the encoder (R63). -/

namespace Sys2Proof

/-- The mnemonics of R58, one for each opcode. -/
inductive Mnemonic where
  | glog | gexp
  | sclr | spush | pnew | plen | pget
  | pmul | pmod | genp
  | rsenc | elen | eget
  deriving DecidableEq, Repr

/-- The four uses of the immediate (R59). -/
inductive ImmUse where
  | signed
  | unsigned
  | byte
  | none
  deriving DecidableEq, Repr

/-- What a row of R58 says: the opcode and the fields the command uses. -/
structure Format where
  op : BitVec 8
  rd : Bool
  ra : Bool
  rb : Bool
  imm : ImmUse
  deriving DecidableEq, Repr

/-- The fields of a command word (R56). -/
structure Fields where
  op : BitVec 8
  rd : BitVec 2
  ra : BitVec 2
  rb : BitVec 2
  z : BitVec 2
  imm : BitVec 16
  deriving DecidableEq, Repr

/-- Why a word is an illegal command: the four cases of R61. All raise IllegalCommand alike. -/
inductive Illegal where
  /-- The opcode is not in the table. -/
  | unknownOpcode
  /-- A known opcode with a non-zero `z` field. -/
  | nonzeroZ
  /-- A known opcode with a non-zero register field that the command does not use. -/
  | nonzeroRegister
  /-- A known opcode with a non-zero immediate, or high immediate byte, that the command does not use. -/
  | nonzeroImmediate
  deriving DecidableEq, Repr

/-- The opcode map (R58). -/
def Mnemonic.format : Mnemonic → Format
  | .glog  => ⟨0x01, false, false, false, .signed⟩
  | .gexp  => ⟨0x02, false, false, false, .signed⟩
  | .sclr  => ⟨0x10, false, false, false, .none⟩
  | .spush => ⟨0x11, false, false, false, .byte⟩
  | .pnew  => ⟨0x12, true, false, false, .unsigned⟩
  | .plen  => ⟨0x13, false, true, false, .none⟩
  | .pget  => ⟨0x14, false, true, false, .unsigned⟩
  | .pmul  => ⟨0x20, true, true, true, .none⟩
  | .pmod  => ⟨0x21, true, true, true, .none⟩
  | .genp  => ⟨0x22, true, false, false, .byte⟩
  | .rsenc => ⟨0x30, false, false, false, .byte⟩
  | .elen  => ⟨0x31, false, false, false, .none⟩
  | .eget  => ⟨0x32, false, false, false, .unsigned⟩

/-- Every mnemonic, in the order of R58. -/
def Mnemonic.all : List Mnemonic :=
  [.glog, .gexp, .sclr, .spush, .pnew, .plen, .pget, .pmul, .pmod, .genp, .rsenc, .elen, .eget]

/-- The row of R58 with this opcode. -/
def Mnemonic.ofOpcode (op : BitVec 8) : Option Mnemonic :=
  Mnemonic.all.find? fun m => m.format.op == op

/-- Cut a word into its fields (R56). -/
def splitWord (w : Word) : Fields where
  op := w.extractLsb' 24 8
  rd := w.extractLsb' 22 2
  ra := w.extractLsb' 20 2
  rb := w.extractLsb' 18 2
  z := w.extractLsb' 16 2
  imm := w.extractLsb' 0 16

/-- Put a word together from its fields, `op` at the most significant end (R56). -/
def joinFields (f : Fields) : Word :=
  f.op ++ f.rd ++ f.ra ++ f.rb ++ f.z ++ f.imm

/-- An immediate obeys R57 and R59: what the command does not use of it is zero. -/
def ImmUse.admits (u : ImmUse) (imm : BitVec 16) : Bool :=
  match u with
  | .signed => true
  | .unsigned => true
  | .byte => imm.extractLsb' 8 8 == 0
  | .none => imm == 0

/-- R57: the fields a command does not use are zero. `none` when they all are. -/
def Format.objection (t : Format) (f : Fields) : Option Illegal :=
  if f.z ≠ 0 then some .nonzeroZ
  else if (!t.rd && f.rd != 0) || (!t.ra && f.ra != 0) || (!t.rb && f.rb != 0) then some .nonzeroRegister
  else if !t.imm.admits f.imm then some .nonzeroImmediate
  else none

/-- The 2-bit number of a polynomial register (R56). -/
def PReg.num : PReg → BitVec 2
  | .p0 => 0
  | .p1 => 1
  | .p2 => 2
  | .p3 => 3

/-- The register a 2-bit number names; every number names one (R56). -/
def PReg.ofNum (n : BitVec 2) : PReg :=
  if n = 0 then .p0 else if n = 1 then .p1 else if n = 2 then .p2 else .p3

/-- The command a row and its fields stand for (R59: `sext(imm16)`, `imm16` or `imm16[7:0]`). -/
def buildInstr (m : Mnemonic) (f : Fields) : Instr :=
  match m with
  | .glog => .glog f.imm.toInt
  | .gexp => .gexp f.imm.toInt
  | .sclr => .sclr
  | .spush => .spush (f.imm.extractLsb' 0 8).toNat
  | .pnew => .pnew (PReg.ofNum f.rd) f.imm.toNat
  | .plen => .plen (PReg.ofNum f.ra)
  | .pget => .pget (PReg.ofNum f.ra) f.imm.toNat
  | .pmul => .pmul (PReg.ofNum f.rd) (PReg.ofNum f.ra) (PReg.ofNum f.rb)
  | .pmod => .pmod (PReg.ofNum f.rd) (PReg.ofNum f.ra) (PReg.ofNum f.rb)
  | .genp => .genp (PReg.ofNum f.rd) (f.imm.extractLsb' 0 8).toNat
  | .rsenc => .rsenc (f.imm.extractLsb' 0 8).toNat
  | .elen => .elen
  | .eget => .eget f.imm.toNat

/-- The decoder (R60 step 2), total on all 2^32 words; an illegal word is rejected by name (R61). -/
def decode (w : Word) : Except Illegal Instr :=
  match Mnemonic.ofOpcode (splitWord w).op with
  | none => .error .unknownOpcode
  | some m =>
    match m.format.objection (splitWord w) with
    | some r => .error r
    | none => .ok (buildInstr m (splitWord w))

/-- The mnemonic of a command. -/
def Instr.mnemonic : Instr → Mnemonic
  | .glog _ => .glog
  | .gexp _ => .gexp
  | .sclr => .sclr
  | .spush _ => .spush
  | .pnew _ _ => .pnew
  | .plen _ => .plen
  | .pget _ _ => .pget
  | .pmul _ _ _ => .pmul
  | .pmod _ _ _ => .pmod
  | .genp _ _ => .genp
  | .rsenc _ => .rsenc
  | .elen => .elen
  | .eget _ => .eget

/-- The polynomial registers a command names. -/
def Instr.regs : Instr → List PReg
  | .glog _ => []
  | .gexp _ => []
  | .sclr => []
  | .spush _ => []
  | .pnew rd _ => [rd]
  | .plen ra => [ra]
  | .pget ra _ => [ra]
  | .pmul rd ra rb => [rd, ra, rb]
  | .pmod rd ra rb => [rd, ra, rb]
  | .genp rd _ => [rd]
  | .rsenc _ => []
  | .elen => []
  | .eget _ => []

/-- The engine has the register: there are `P[0]` to `P[NPOLY-1]` (R20, R27). -/
def Config.has (c : Config) (r : PReg) : Bool := decide (r.num.toNat < c.npoly)

/-- The engine has every register the command names; with `NPOLY = 4` it always does (R56). -/
def Config.admits (c : Config) (i : Instr) : Bool := i.regs.all c.has

/-- The fields of a command's word; a field the command does not use is zero (R57, R63). -/
def Instr.fields (i : Instr) : Fields :=
  match i with
  | .glog n => ⟨i.mnemonic.format.op, 0, 0, 0, 0, BitVec.ofInt 16 n⟩
  | .gexp n => ⟨i.mnemonic.format.op, 0, 0, 0, 0, BitVec.ofInt 16 n⟩
  | .sclr => ⟨i.mnemonic.format.op, 0, 0, 0, 0, 0⟩
  | .spush b => ⟨i.mnemonic.format.op, 0, 0, 0, 0, BitVec.ofNat 16 b⟩
  | .pnew rd k => ⟨i.mnemonic.format.op, rd.num, 0, 0, 0, BitVec.ofNat 16 k⟩
  | .plen ra => ⟨i.mnemonic.format.op, 0, ra.num, 0, 0, 0⟩
  | .pget ra k => ⟨i.mnemonic.format.op, 0, ra.num, 0, 0, BitVec.ofNat 16 k⟩
  | .pmul rd ra rb => ⟨i.mnemonic.format.op, rd.num, ra.num, rb.num, 0, 0⟩
  | .pmod rd ra rb => ⟨i.mnemonic.format.op, rd.num, ra.num, rb.num, 0, 0⟩
  | .genp rd n => ⟨i.mnemonic.format.op, rd.num, 0, 0, 0, BitVec.ofNat 16 n⟩
  | .rsenc n => ⟨i.mnemonic.format.op, 0, 0, 0, 0, BitVec.ofNat 16 n⟩
  | .elen => ⟨i.mnemonic.format.op, 0, 0, 0, 0, 0⟩
  | .eget k => ⟨i.mnemonic.format.op, 0, 0, 0, 0, BitVec.ofNat 16 k⟩

/-- The word of a command (R56, R63). Only a well-formed command is encoded without loss. -/
def encode (i : Instr) : Word := joinFields i.fields

/-- The command the decoder reads from a word given as a number of `nbits` bits; every command is
one 32-bit word (R55), so a number that does not fit one is no command. -/
def decodeTableWord (nbits w : Nat) : Option Instr :=
  if w % 2 ^ nbits < 2 ^ 32 then
    match decode (BitVec.ofNat 32 (w % 2 ^ nbits)) with
    | .ok i => some i
    | .error _ => none
  else none

end Sys2Proof
end

