-- ==== Sys2Proof/Machine/State.lean ====
section
/-! DEFINITION. The state of the engine (R20), the host's side of the port window that the step reads
and writes, the reasons a run can end, and the machine after reset (R155). Plain data throughout. -/

namespace Sys2Proof.Machine

/-- The two tables (R20 to R22). While `TRDY = 0` their contents are unspecified (R25); `LOG[0]` never
has a defined value (R22, log entry 7). -/
structure Tables where
  exp : Vector Byte tableSize
  log : Vector Byte tableSize
  deriving DecidableEq, Repr

/-- The polynomial registers `P[0]` to `P[3]` (R27), each a sequence most significant first. With
`NPOLY` below 4 the registers from `P[NPOLY]` on are absent and stay empty (log entry 24). -/
structure PolyRegs where
  p0 : ByteSeq
  p1 : ByteSeq
  p2 : ByteSeq
  p3 : ByteSeq
  deriving DecidableEq, Repr

/-- The complete architectural state of the engine (R20). -/
structure Engine where
  /-- `EXP` and `LOG` (R21, R22). -/
  tables : Tables
  /-- `P[0..3]` (R27). -/
  p : PolyRegs
  /-- `SB`, the staging buffer (R29). -/
  sb : ByteSeq
  /-- `EB`, the EC buffer (R30). -/
  eb : ByteSeq
  /-- `RES` (R31). -/
  res : Word
  /-- `STATUS` (R32): its fields are in Machine/Flags.lean. -/
  status : Word
  /-- `FINFO` (R33). -/
  finfo : Word
  /-- `FARG` (R33). -/
  farg : Word
  deriving DecidableEq, Repr

/-- One action of the host (R6): a read or a write of `bits` bits at a bus address, or reset (R155).
The aligned 32-bit accesses inside the window are the `HostRead` and `HostWrite` of R41 and R42. -/
inductive HostAction where
  | read (addr bits : Nat)
  | write (addr bits : Nat) (value : Word)
  | reset
  deriving DecidableEq, Repr

/-- The machine: the engine, and what the spec places outside it (R35) but a step needs. -/
structure State where
  /-- The architectural state of R20. -/
  engine : Engine
  /-- The parameters of R8; no step changes them (log entry 4). -/
  cfg : Config
  /-- The host's actions still to come, the next one first (R35, R48; log entry 1). -/
  pending : List HostAction
  /-- What the host's reads have returned, oldest first (R41; log entry 2). -/
  returned : List Word
  deriving DecidableEq, Repr

/-- The faults that END a run. There is none: an engine fault (R136) is an ordinary next state, the
sticky fault state of R141, and "there is no behaviour in this spec that is left as stuck"
(93_implementation_defined.md; log entry 10). -/
inductive Fault where
  deriving DecidableEq, Repr

/-- The reasons a step refuses to run. -/
inductive Refusal where
  /-- Raised by `exec` for a command without a meaning; none is left. Safe. -/
  | notModelled (mnemonic : String)
  /-- Raised by a port access outside the 32-byte window, which is the platform's (R44, I9). Safe. -/
  | outsideWindow
  /-- Raised by a port access of a width other than 32 bits (R44, I8). Safe. -/
  | accessWidth
  /-- Raised by a port access whose address is not a multiple of 4 (R44, I8). Safe. -/
  | misaligned
  deriving DecidableEq, Repr

/-- The four engine faults (R136). -/
inductive Cause where
  | domainError
  | illegalCommand
  | lengthFault
  | indexFault
  deriving DecidableEq, Repr

/-- `raise F(info)` of R14: the fault and the argument that `FARG` receives (R137). -/
structure Raise where
  cause : Cause
  info : Word
  deriving DecidableEq, Repr

/-- Table contents at reset. The spec leaves them unspecified (R155) and unobservable (R156);
zeros are a DESIGN CHOICE (log entry 6). -/
def Tables.reset : Tables where
  exp := Vector.replicate tableSize 0
  log := Vector.replicate tableSize 0

/-- The engine after reset (R155). -/
def Engine.reset : Engine where
  tables := Tables.reset
  p := ⟨[], [], [], []⟩
  sb := []
  eb := []
  res := 0
  status := 0
  finfo := 0
  farg := 0

/-- The machine right after reset, with the default parameters and no host action yet. -/
def State.reset : State where
  engine := Engine.reset
  cfg := Config.standard
  pending := []
  returned := []

end Sys2Proof.Machine
end

