-- ==== Sys2Proof/Machine/Flags.lean ====
section
/-! DEFINITION. The fields of `STATUS` (R32) and the cause codes (R136). The engine has no other flag
(R36). -/

namespace Sys2Proof.Machine

/-- `STATUS.TRDY`, bit 0: the tables have been computed (R32). -/
def Engine.trdy (e : Engine) : Bool := e.status.getLsbD 0

/-- `STATUS.FAULT`, bit 1: the engine is in the fault state (R32, R141). -/
def Engine.faulted (e : Engine) : Bool := e.status.getLsbD 1

/-- `STATUS.FCAUSE`, bits 7:4 (R32). -/
def Engine.fcause (e : Engine) : BitVec 4 := e.status.extractLsb' 4 4

/-- The cause codes of R136. -/
def Cause.code : Cause → BitVec 4
  | .domainError => 1
  | .illegalCommand => 2
  | .lengthFault => 3
  | .indexFault => 4

/-- `STATUS` with `TRDY` set (R24); every other bit keeps its value. -/
def statusReady (st : Word) : Word := st ||| 0x1

/-- `STATUS` with `FAULT` set and `FCAUSE` the fault's code (R140); every other bit keeps its value. -/
def statusFault (st : Word) (c : Cause) : Word :=
  (st &&& 0xFFFFFF0D) ||| 0x2 ||| (c.code.setWidth 32 <<< 4)

end Sys2Proof.Machine
end

