-- ==== Sys2Proof/Machine/Operands.lean ====
section
/-! DEFINITION. Reading and writing operands: polynomial registers by number (R27, R28), elements of a
sequence by index (R92, R124), and the two ways a number becomes a 32-bit word (R31, R137). -/

namespace Sys2Proof.Machine

/-- Read `P[r]` (R14, R27). -/
def PolyRegs.read (p : PolyRegs) : PReg → ByteSeq
  | .p0 => p.p0
  | .p1 => p.p1
  | .p2 => p.p2
  | .p3 => p.p3

/-- `P[r] <- v`: the register is written as a whole (R28). -/
def PolyRegs.write (p : PolyRegs) (r : PReg) (v : ByteSeq) : PolyRegs :=
  match r with
  | .p0 => { p with p0 := v }
  | .p1 => { p with p1 := v }
  | .p2 => { p with p2 := v }
  | .p3 => { p with p3 := v }

/-- `zext_32` of a natural number (R10, R31). -/
def wordOfNat (n : Nat) : Word := BitVec.ofNat 32 n

/-- `zext_32` of a byte (R10, R31). -/
def wordOfByte (b : Byte) : Word := b.setWidth 32

/-- The 32-bit two's-complement form of an integer (R137). -/
def wordOfInt (n : Int) : Word := BitVec.ofInt 32 n

/-- DomainError(n) (R76, R137). -/
def Raise.domain (n : Int) : Raise := ⟨.domainError, wordOfInt n⟩

/-- LengthFault(len), the length that was refused (R137). -/
def Raise.length (len : Nat) : Raise := ⟨.lengthFault, wordOfNat len⟩

/-- IndexFault(k) (R137). -/
def Raise.index (k : Nat) : Raise := ⟨.indexFault, wordOfNat k⟩

/-- IllegalCommand, whose argument is 0 (R137). -/
def Raise.illegal : Raise := ⟨.illegalCommand, 0⟩

/-- Element `k` of a sequence; IndexFault(k) when `k` is not below the length (R92, R124). -/
def element (s : ByteSeq) (k : Nat) : Except Raise Byte :=
  match s[k]? with
  | some b => .ok b
  | none => .error (Raise.index k)

/-- A length test: LengthFault(len) when `len` is above the capacity (R89, R90, R102, R110, R122). -/
def checkLength (len cap : Nat) : Except Raise Unit :=
  if len > cap then .error (Raise.length len) else .ok ()

/-- `zeros(k)` (R13). -/
def zeros (k : Nat) : ByteSeq := List.replicate k 0

/-- `RES <- w` (R31). -/
def Engine.setRes (e : Engine) (w : Word) : Engine := { e with res := w }

/-- `P[rd] <- v` (R28). -/
def Engine.setPoly (e : Engine) (rd : PReg) (v : ByteSeq) : Engine := { e with p := e.p.write rd v }

/-- `SB <- v` (R29). -/
def Engine.setSb (e : Engine) (v : ByteSeq) : Engine := { e with sb := v }

/-- `EB <- v` (R30). -/
def Engine.setEb (e : Engine) (v : ByteSeq) : Engine := { e with eb := v }

end Sys2Proof.Machine
end

