-- ==== Sys2Proof/Machine/Tables.lean ====
section
/-! DEFINITION. Table construction, the body of `tables_init()` (R23), for any `PRIM_POLY` and
`ALPHA`. -/

namespace Sys2Proof.Machine

/-- R23's doubling: shift left by one, and reduce when the 9-bit value reaches 256. -/
def double (prim v : Nat) : Nat :=
  if v * 2 ≥ 256 then (v * 2) ^^^ prim else v * 2

/-- The product of `v` and the lowest `k` bits of `a` in the field: bit `j` of `a` adds `v` doubled `j`
times. -/
def timesBits (prim : Nat) : Nat → Nat → Nat → Nat
  | 0, _, _ => 0
  | k + 1, a, v => (if a % 2 = 1 then v else 0) ^^^ timesBits prim k (a / 2) (double prim v)

/-- One pass of R23's first loop, `v` to `v * ALPHA` in the field (R21). With `ALPHA = 2` it is R23's
doubling (`nextPower_two`). -/
def nextPower (fp : FieldParams) (v : Nat) : Nat := timesBits fp.primPoly 8 fp.alpha.toNat v

/-- The `k` values that R23's first loop writes when it starts from `v`. -/
def powers (fp : FieldParams) : Nat → Nat → ByteSeq
  | 0, _ => []
  | k + 1, v => BitVec.ofNat 8 v :: powers fp k (nextPower fp v)

theorem powers_length (fp : FieldParams) (k v : Nat) : (powers fp k v).length = k := by
  induction k generalizing v with
  | zero => rfl
  | succ k ih => simp [powers, ih]

/-- `EXP` as R23 fills it: `EXP[i]` for `i` from 0 to 255. -/
def expTable (fp : FieldParams) : Vector Byte tableSize :=
  ⟨⟨powers fp 256 1⟩, powers_length fp 256 1⟩

/-- R23's second loop from index `i` on: `LOG[EXP[i]] <- i` for the listed values of `EXP`. -/
def fillLog (log : Vector Byte tableSize) : Nat → ByteSeq → Vector Byte tableSize
  | _, [] => log
  | i, x :: xs => fillLog (log.setIfInBounds x.toNat (BitVec.ofNat 8 i)) (i + 1) xs

/-- Both loops of R23. The second stops at 254 and leaves entries it does not reach as they were, so
`LOG[0]` keeps what it held (R22, log entry 7). -/
def Tables.fill (fp : FieldParams) (t : Tables) : Tables where
  exp := expTable fp
  log := fillLog t.log 0 (powers fp 255 1)

end Sys2Proof.Machine
end

