-- ==== Sys2Proof/Machine/Ops.lean ====
section
/-! DEFINITION. What every command shares: table initialisation (R24), fault entry (R140) and the
prologue and epilogue of a command (R60 steps 1, 4 and 5). There is no return from a fault (R142). -/

namespace Sys2Proof.Machine

/-- `tables_init()` (R24). -/
def Engine.tablesInit (fp : FieldParams) (e : Engine) : Engine :=
  if e.trdy then e
  else { e with tables := e.tables.fill fp, status := statusReady e.status }

/-- Fault entry, `raise F(info)` while executing the command word `w` (R140): exactly `STATUS.FAULT`,
`STATUS.FCAUSE`, `FINFO` and `FARG` are written. -/
def Engine.enterFault (w : Word) (r : Raise) (e : Engine) : Engine :=
  { e with status := statusFault e.status r.cause, finfo := w, farg := r.info }

/-- The table-using commands (R24, R60 step 4). -/
def usesTables : Instr → Bool
  | .glog _ => true
  | .gexp _ => true
  | .sclr => false
  | .spush _ => false
  | .pnew _ _ => false
  | .plen _ => false
  | .pget _ _ => false
  | .pmul _ _ _ => true
  | .pmod _ _ _ => true
  | .genp _ _ => true
  | .rsenc _ => true
  | .elen => false
  | .eget _ => false

/-- The engine as a command's rule finds it: after R60 step 4. -/
def Engine.prologue (fp : FieldParams) (i : Instr) (e : Engine) : Engine :=
  if usesTables i then e.tablesInit fp else e

/-- R60 step 5: the rule completes, or it raises one fault and writes nothing but the fault record.
The command word is the word of the command (log entry 9). -/
def Engine.finish (i : Instr) (e : Engine) (outcome : Except Raise Engine) : Engine :=
  match outcome with
  | .ok e' => e'
  | .error r => e.enterFault (encode i) r

/-- The command `i` with the rule `rule`, by R60: ignored in the fault state (step 1, R141); no command
of this engine when it names a register the engine lacks (step 2, log entry 24); else table
initialisation for a table-using command (step 4), then the rule (step 5). -/
def Engine.command (c : Config) (i : Instr) (rule : Config → Engine → Except Raise Engine) (e : Engine) :
    Engine :=
  if e.faulted then e
  else if c.admits i then (e.prologue c.field i).finish i (rule c (e.prologue c.field i))
  else e.enterFault (encode i) Raise.illegal

/-- A command as a step of the machine. It always answers a next state: a fault of the engine is one. -/
def command (i : Instr) (rule : Config → Engine → Except Raise Engine) (s : State) :
    Host.Outcome State Fault Refusal :=
  .next { s with engine := s.engine.command s.cfg i rule }

end Sys2Proof.Machine
end

