-- ==== Sys2Proof/Machine/Construct.lean ====
section
/-! DEFINITION. Polynomial construction and reading (41_poly_construct.md): SCLR, SPUSH, PNEW, PLEN and
PGET. None of them uses the tables. -/

namespace Sys2Proof.Machine

/-- R85: `strip(s)`. -/
def strip : ByteSeq → ByteSeq
  | [] => []
  | c :: cs => if c = 0 then strip cs else c :: cs

/-- R87: `construct(s, k)`, the strip applied after the zeros are appended. -/
def construct (s : ByteSeq) (k : Nat) : ByteSeq := strip (s ++ zeros k)

/-- The body of R88. -/
def ruleSclr (_ : Config) (e : Engine) : Except Raise Engine := .ok (e.setSb [])

/-- The body of R89. -/
def ruleSpush (b : Nat) (c : Config) (e : Engine) : Except Raise Engine :=
  if e.sb.length = c.smax then .error (Raise.length (c.smax + 1))
  else .ok (e.setSb (e.sb ++ [BitVec.ofNat 8 b]))

/-- The body of R90. -/
def rulePnew (rd : PReg) (k : Nat) (c : Config) (e : Engine) : Except Raise Engine := do
  checkLength (construct e.sb k).length c.pmax
  return e.setPoly rd (construct e.sb k)

/-- The body of R91. -/
def rulePlen (ra : PReg) (_ : Config) (e : Engine) : Except Raise Engine :=
  .ok (e.setRes (wordOfNat (e.p.read ra).length))

/-- The body of R92. -/
def rulePget (ra : PReg) (k : Nat) (_ : Config) (e : Engine) : Except Raise Engine := do
  let b ← element (e.p.read ra) k
  return e.setRes (wordOfByte b)

/-- R88: SCLR. -/
def execSclr (s : State) : Host.Outcome State Fault Refusal :=
  command .sclr ruleSclr s

/-- R89: SPUSH b. -/
def execSpush (b : Nat) (s : State) : Host.Outcome State Fault Refusal :=
  command (.spush b) (ruleSpush b) s

/-- R90: PNEW Pd, k. -/
def execPnew (rd : PReg) (k : Nat) (s : State) : Host.Outcome State Fault Refusal :=
  command (.pnew rd k) (rulePnew rd k) s

/-- R91: PLEN Pa. -/
def execPlen (ra : PReg) (s : State) : Host.Outcome State Fault Refusal :=
  command (.plen ra) (rulePlen ra) s

/-- R92: PGET Pa, k. -/
def execPget (ra : PReg) (k : Nat) (s : State) : Host.Outcome State Fault Refusal :=
  command (.pget ra k) (rulePget ra k) s

end Sys2Proof.Machine
end

