-- ==== Sys2Proof/Machine/Scalar.lean ====
section
/-! DEFINITION. The scalar field functions (40_field_scalar.md) and the commands GLOG and GEXP. -/

namespace Sys2Proof.Machine

/-- R76: `glog(n)`, a DomainError for `n < 1` and for `n > 255`. -/
def glog (t : Tables) (n : Int) : Except Raise Int :=
  if n < 1 then .error (Raise.domain n)
  else if n > 255 then .error (Raise.domain n)
  else .ok (t.log.getD n.toNat 0).toNat

/-- R77's first loop, `while n < 0: n <- n + 255`, with a bound on its passes (log entry 11). -/
def addLoop : Nat → Int → Int
  | 0, n => n
  | k + 1, n => if n < 0 then addLoop k (n + 255) else n

/-- R77's second loop, `while n >= 256: n <- n - 255`, with a bound on its passes (log entry 11). -/
def subLoop : Nat → Int → Int
  | 0, n => n
  | k + 1, n => if n ≥ 256 then subLoop k (n - 255) else n

/-- The index that R77's loops leave: each pass moves `n` by 255, so `|n|` passes are enough. -/
def normalise (n : Int) : Int := subLoop n.natAbs (addLoop n.natAbs n)

/-- R77: `gexp(n)`. -/
def gexp (t : Tables) (n : Int) : Byte := t.exp.getD (normalise n).toNat 0

/-- R79: `gmul(a, b)`, with no zero bypass. -/
def gmul (t : Tables) (a b : Byte) : Except Raise Byte := do
  let la ← glog t a.toNat
  let lb ← glog t b.toNat
  return gexp t (la + lb)

/-- The body of R80. -/
def ruleGlog (n : Int) (_ : Config) (e : Engine) : Except Raise Engine := do
  let v ← glog e.tables n
  return e.setRes (wordOfNat v.toNat)

/-- The body of R81. -/
def ruleGexp (n : Int) (_ : Config) (e : Engine) : Except Raise Engine :=
  .ok (e.setRes (wordOfByte (gexp e.tables n)))

/-- R80: GLOG n. -/
def execGlog (n : Int) (s : State) : Host.Outcome State Fault Refusal :=
  command (.glog n) (ruleGlog n) s

/-- R81: GEXP n. -/
def execGexp (n : Int) (s : State) : Host.Outcome State Fault Refusal :=
  command (.gexp n) (ruleGexp n) s

end Sys2Proof.Machine
end

