-- ==== Sys2Proof/Machine/Arith.lean ====
section
/-! DEFINITION. Polynomial arithmetic (42_poly_arith.md): the functions `poly_mul`, `poly_mod` and
`genpoly`, and the commands PMUL, PMOD and GENP. -/

namespace Sys2Proof.Machine

/-- XOR a sequence into the most significant end of another: `out[j] <- out[j] ^ row[j]`. -/
def xorFront : ByteSeq → ByteSeq → ByteSeq
  | [], out => out
  | _ :: _, [] => []
  | r :: row, o :: out => (o ^^^ r) :: xorFront row out

/-- One pass of R101's outer loop: `gmul(a, b[j])` for every `j`. -/
def mulRow (t : Tables) (a : Byte) : ByteSeq → Except Raise ByteSeq
  | [] => .ok []
  | b :: bs => do
    let x ← gmul t a b
    let xs ← mulRow t a bs
    return x :: xs

/-- R101's loops over `a` and `b` (non-empty): the products of `a[i]` are XORed in at slots `i + j`,
so the first row lies at the most significant end and the other rows one slot further down. -/
def mulRows (t : Tables) : ByteSeq → ByteSeq → Except Raise ByteSeq
  | [], b => .ok (zeros (b.length - 1))
  | a :: as, b => do
    let row ← mulRow t a b
    let rest ← mulRows t as b
    return xorFront row (0 :: rest)

/-- R101: `poly_mul(a, b)`. -/
def polyMul (t : Tables) (a b : ByteSeq) : Except Raise ByteSeq :=
  if a.length = 0 ∨ b.length = 0 then .ok []
  else do
    let out ← mulRows t a b
    return strip out

/-- The divisor scaled by `ALPHA^ratio`: `gexp(glog(d[i]) + ratio)` for every `i` (R105). -/
def scaleBy (t : Tables) (ratio : Int) : ByteSeq → Except Raise ByteSeq
  | [] => .ok []
  | d :: ds => do
    let l ← glog t d.toNat
    let xs ← scaleBy t ratio ds
    return gexp t (l + ratio) :: xs

/-- One pass of R105's loop before the strip: `num`, the dividend XORed with the scaled divisor. -/
def modPass (t : Tables) (a d : ByteSeq) : Except Raise ByteSeq := do
  let la ← glog t (a.headD 0).toNat
  let ld ← glog t (d.headD 0).toNat
  let row ← scaleBy t (la - ld) d
  return xorFront row a

/-- R105's loop, with a bound on its passes (log entry 11). -/
def modLoop (t : Tables) (d : ByteSeq) : Nat → ByteSeq → Except Raise ByteSeq
  | 0, a => .ok a
  | k + 1, a =>
    if a.length < d.length then .ok a
    else do
      let num ← modPass t a d
      modLoop t d k (strip num)

/-- R105: `poly_mod(a, d)`. Each pass shortens the dividend, so `len(a)` passes are enough. -/
def polyMod (t : Tables) (a d : ByteSeq) : Except Raise ByteSeq :=
  if d.length = 0 then .error (Raise.domain 0) else modLoop t d a.length a

/-- R109: `genpoly(n)`. -/
def genpoly (t : Tables) : Nat → Except Raise ByteSeq
  | 0 => .ok [1]
  | n + 1 => do
    let a ← genpoly t n
    polyMul t a [1, gexp t n]

/-- R102's length test: only when both operands are non-empty. -/
def checkProduct (a b : ByteSeq) (cap : Nat) : Except Raise Unit :=
  if 0 < a.length ∧ 0 < b.length then checkLength (a.length + b.length - 1) cap else .ok ()

/-- The body of R102: both operands are read before the destination is written. -/
def rulePmul (rd ra rb : PReg) (c : Config) (e : Engine) : Except Raise Engine := do
  checkProduct (e.p.read ra) (e.p.read rb) c.pmax
  let p ← polyMul e.tables (e.p.read ra) (e.p.read rb)
  return e.setPoly rd p

/-- The body of R106: both operands are read before the destination is written. -/
def rulePmod (rd ra rb : PReg) (_ : Config) (e : Engine) : Except Raise Engine := do
  let r ← polyMod e.tables (e.p.read ra) (e.p.read rb)
  return e.setPoly rd r

/-- The body of R110. -/
def ruleGenp (rd : PReg) (n : Nat) (c : Config) (e : Engine) : Except Raise Engine := do
  checkLength (n + 1) c.pmax
  let g ← genpoly e.tables n
  return e.setPoly rd g

/-- R102: PMUL Pd, Pa, Pb. -/
def execPmul (rd ra rb : PReg) (s : State) : Host.Outcome State Fault Refusal :=
  command (.pmul rd ra rb) (rulePmul rd ra rb) s

/-- R106: PMOD Pd, Pa, Pb. -/
def execPmod (rd ra rb : PReg) (s : State) : Host.Outcome State Fault Refusal :=
  command (.pmod rd ra rb) (rulePmod rd ra rb) s

/-- R110: GENP Pd, n. -/
def execGenp (rd : PReg) (n : Nat) (s : State) : Host.Outcome State Fault Refusal :=
  command (.genp rd n) (ruleGenp rd n) s

end Sys2Proof.Machine
end

