-- ==== Sys2Proof/Machine/RsEncode.lean ====
section
/-! DEFINITION. Reed-Solomon block encoding (43_rs_encode.md §1 and §2): `rs_ec` and the commands
RSENC, ELEN and EGET. -/

namespace Sys2Proof.Machine

/-- `zeros(n - len(r)) ++ r`: the remainder right-aligned in `n` bytes (R115, R116). -/
def padLeft (n : Nat) (r : ByteSeq) : ByteSeq := zeros (n - r.length) ++ r

/-- R115: `rs_ec(data, n)`. -/
def rsEc (t : Tables) (data : ByteSeq) (n : Nat) : Except Raise ByteSeq := do
  let g ← genpoly t n
  let r ← polyMod t (construct data n) g
  return padLeft n r

/-- The body of R122. The capacity of `EB` is tested last, by D7 (log entry 17): with the defaults no
`n` exceeds it. -/
def ruleRsenc (n : Nat) (c : Config) (e : Engine) : Except Raise Engine := do
  checkLength (n + 1) c.pmax
  checkLength (construct e.sb n).length c.pmax
  checkLength n c.emax
  let ec ← rsEc e.tables e.sb n
  return e.setEb ec

/-- The body of R123. -/
def ruleElen (_ : Config) (e : Engine) : Except Raise Engine :=
  .ok (e.setRes (wordOfNat e.eb.length))

/-- The body of R124. -/
def ruleEget (k : Nat) (_ : Config) (e : Engine) : Except Raise Engine := do
  let b ← element e.eb k
  return e.setRes (wordOfByte b)

/-- R122: RSENC n. -/
def execRsenc (n : Nat) (s : State) : Host.Outcome State Fault Refusal :=
  command (.rsenc n) (ruleRsenc n) s

/-- R123: ELEN. -/
def execElen (s : State) : Host.Outcome State Fault Refusal :=
  command .elen ruleElen s

/-- R124: EGET k. -/
def execEget (k : Nat) (s : State) : Host.Outcome State Fault Refusal :=
  command (.eget k) (ruleEget k) s

end Sys2Proof.Machine
end

