-- ==== Sys2Proof/Machine/Dispatch.lean ====
section
/-! DEFINITION. One arm for each command: a command word that decodes to `i`, executed by R60. -/

namespace Sys2Proof.Machine

def exec (i : Instr) (s : State) : Host.Outcome State Fault Refusal :=
  match i with
  | .glog n => Sys2Proof.Machine.execGlog n s
  | .gexp n => Sys2Proof.Machine.execGexp n s
  | .sclr => Sys2Proof.Machine.execSclr s
  | .spush b => Sys2Proof.Machine.execSpush b s
  | .pnew rd k => Sys2Proof.Machine.execPnew rd k s
  | .plen ra => Sys2Proof.Machine.execPlen ra s
  | .pget ra k => Sys2Proof.Machine.execPget ra k s
  | .pmul rd ra rb => Sys2Proof.Machine.execPmul rd ra rb s
  | .pmod rd ra rb => Sys2Proof.Machine.execPmod rd ra rb s
  | .genp rd n => Sys2Proof.Machine.execGenp rd n s
  | .rsenc n => Sys2Proof.Machine.execRsenc n s
  | .elen => Sys2Proof.Machine.execElen s
  | .eget k => Sys2Proof.Machine.execEget k s

end Sys2Proof.Machine
end

