-- ==== Sys2Proof/Machine/Ports.lean ====
section
/-! DEFINITION. The host's port window (20_memory.md): the ports, their addresses, the two port actions
`HostRead` and `HostWrite`, and reset. -/

namespace Sys2Proof.Machine

/-- The ports of R40; the three reserved slots are alike. -/
inductive Port where
  | cmd
  | status
  | res
  | finfo
  | farg
  | reserved
  deriving DecidableEq, Repr

/-- The port at a slot of the window, slot `k` being offset `4 k` (R40). -/
def portAtSlot : Nat → Port
  | 0 => .cmd
  | 1 => .status
  | 2 => .res
  | 3 => .finfo
  | 4 => .farg
  | _ => .reserved

/-- The port that an access of `bits` bits at a bus address reaches. Only a naturally aligned 32-bit
access inside the window has a meaning (R44); the others are refused by name (log entry 8). -/
def portOf (c : Config) (addr bits : Nat) : Except Refusal Port :=
  if addr < c.base ∨ c.base + 32 ≤ addr then .error .outsideWindow
  else if bits ≠ 32 then .error .accessWidth
  else if addr % 4 ≠ 0 then .error .misaligned
  else .ok (portAtSlot ((addr - c.base) / 4))

/-- The value of `HostRead` (R40, R41). -/
def Engine.readPort (e : Engine) : Port → Word
  | .cmd => 0
  | .status => e.status
  | .res => e.res
  | .finfo => e.finfo
  | .farg => e.farg
  | .reserved => 0

/-- A word written to `CMD` (R60): ignored in the fault state; an illegal word raises IllegalCommand
(R61); a command executes. -/
def writeCmd (w : Word) (s : State) : Host.Outcome State Fault Refusal :=
  if s.engine.faulted then .next s
  else
    match decode w with
    | .error _ => .next { s with engine := s.engine.enterFault w Raise.illegal }
    | .ok i => exec i s

/-- `HostWrite` (R42): only `CMD` has an effect, a write to any other port is ignored (R43). -/
def writePort (p : Port) (v : Word) (s : State) : Host.Outcome State Fault Refusal :=
  match p with
  | .cmd => writeCmd v s
  | .status => .next s
  | .res => .next s
  | .finfo => .next s
  | .farg => .next s
  | .reserved => .next s

/-- A host read of any address and width: the value goes to the host, the engine is unchanged (R41). -/
def hostRead (addr bits : Nat) (s : State) : Host.Outcome State Fault Refusal :=
  match portOf s.cfg addr bits with
  | .error r => .refused r
  | .ok p => .next { s with returned := s.returned ++ [s.engine.readPort p] }

/-- A host write of any address and width. -/
def hostWrite (addr bits : Nat) (v : Word) (s : State) : Host.Outcome State Fault Refusal :=
  match portOf s.cfg addr bits with
  | .error r => .refused r
  | .ok p => writePort p v s

/-- `reset()` (R155): every item of R20 takes its reset value, in any state. -/
def hostReset (s : State) : Host.Outcome State Fault Refusal :=
  .next { s with engine := Engine.reset }

/-- One action of the host. -/
def hostAct (a : HostAction) (s : State) : Host.Outcome State Fault Refusal :=
  match a with
  | .read addr bits => hostRead addr bits s
  | .write addr bits v => hostWrite addr bits v s
  | .reset => hostReset s

/-- The host takes its next action. With none left nothing happens: the engine has no step of its own
(R6, log entry 3). -/
def hostStep (s : State) : Host.Outcome State Fault Refusal :=
  match s.pending with
  | [] => .next s
  | a :: rest => hostAct a { s with pending := rest }

/-- The host's write of the word numbered `w` to `CMD`. -/
def commandWrite (c : Config) (w : Word) : HostAction := .write c.base 32 w

end Sys2Proof.Machine
end

