-- ==== Sys2Proof/Machine/Step.lean ====
section
/-! DEFINITION. The step of the machine: the host's next action (R6, R48). -/

namespace Sys2Proof.Machine

/-- One step: the host takes its next action, and a command executes inside that action (R6). -/
def step (s : State) : Host.Outcome State Fault Refusal := hostStep s

/-- `s` with the write of the word `w` to `CMD` as the host's very next action (log entry 14). -/
def State.withFetchWord (s : State) (nbits w : Nat) : State :=
  { s with pending := commandWrite s.cfg (BitVec.ofNat 32 (w % 2 ^ nbits)) :: s.pending }

end Sys2Proof.Machine
end

