-- ==== Sys2Proof/Machine/HostProc.lean ====
section
/-! DEFINITION. What the spec transcribes for the HOST around the engine: the pseudo-instructions of
R64 and the block procedure of R127 to R130. No command of the engine depends on this file. -/

namespace Sys2Proof.Machine

/-- `SLOAD b0, ..., bk` (R64). -/
def sload (bs : List Nat) : List Instr := .sclr :: bs.map .spush

/-- `PLOAD Pd, s, b0, ..., bk` (R64). -/
def pload (rd : PReg) (shift : Nat) (bs : List Nat) : List Instr := sload bs ++ [.pnew rd shift]

/-- `RSBLOCK n, b0, ..., bk` (R64). -/
def rsblock (n : Nat) (bs : List Nat) : List Instr := sload bs ++ [.rsenc n]

/-- The host issues a command: it writes the command's word to `CMD`. -/
def issue (c : Config) (i : Instr) : HostAction := commandWrite c (encode i)

/-- `READ RES` in the listings of 95_test_vectors.md: the aligned 32-bit read of offset `0x08`. -/
def readRes (c : Config) : HostAction := .read (c.base + 8) 32

/-- An RS block descriptor, "totalCodewords, dataCodewords" (R127). -/
structure RsBlock where
  totalCodewords : Nat
  dataCodewords : Nat
  deriving DecidableEq, Repr

/-- The versions of R127, 1 to 40. -/
abbrev Version := { v : Nat // 1 ≤ v ∧ v ≤ 40 }

/-- The error-correction levels of R127. -/
inductive EcLevel where
  | l
  | m
  | q
  | h
  deriving DecidableEq, Repr

/-- R127: the host's parameter `RSBLOCKS(version, ecLevel)`, an ordered list of block descriptors for
each pair. Its values are not in the spec (I7), so every function of the host takes it as an argument
(log entry 13). -/
abbrev RsBlockTable := Version → EcLevel → List RsBlock

/-- What R127 says of every table: each pair has one block or more, and a block has no more data
codewords than codewords. -/
def RsBlockTable.wf (table : RsBlockTable) : Prop :=
  ∀ v level, table v level ≠ [] ∧ ∀ b ∈ table v level, b.dataCodewords ≤ b.totalCodewords

/-- R128: `totalDataCodewords`, the length of the filled data buffer. -/
def totalDataCodewords (blocks : List RsBlock) : Nat := (blocks.map (·.dataCodewords)).sum

/-- R127: the EC length of a block. -/
def RsBlock.ecLen (b : RsBlock) : Nat := b.totalCodewords - b.dataCodewords

/-- R128: the blocks take consecutive runs of the data buffer, in list order. -/
def splitBlocks : List RsBlock → ByteSeq → List ByteSeq
  | [], _ => []
  | b :: bs, buf => buf.take b.dataCodewords :: splitBlocks bs (buf.drop b.dataCodewords)

/-- The length of the longest block. -/
def longest (blocks : List ByteSeq) : Nat := (blocks.map List.length).foldr max 0

/-- One pass of R130: index 0 of every block in order, then index 1, skipping shorter blocks. -/
def interleavePass (blocks : List ByteSeq) : ByteSeq :=
  (List.range (longest blocks)).flatMap fun i => blocks.filterMap fun b => b[i]?

/-- R130: the data codewords of all blocks, then their EC codewords. -/
def interleave (data ec : List ByteSeq) : ByteSeq := interleavePass data ++ interleavePass ec

/-- R129: the port actions for one block with data `d` and EC length `n`: `RSBLOCK`, then `EGET 0` to
`EGET n - 1`, each followed by a read of `RES`. -/
def blockActions (c : Config) (d : ByteSeq) (n : Nat) : List HostAction :=
  (rsblock n (d.map (·.toNat))).map (issue c) ++
    (List.range n).flatMap fun k => [issue c (.eget k), readRes c]

/-- R128 and R129 for a whole buffer: the blocks one after the other. -/
def bufferActions (c : Config) (blocks : List RsBlock) (buf : ByteSeq) : List HostAction :=
  (List.zipWith (fun b d => blockActions c d b.ecLen) blocks (splitBlocks blocks buf)).flatten

/-- The EC codewords of every block, cut from the values that the reads of `bufferActions` returned. -/
def collectEc : List RsBlock → List Word → List ByteSeq
  | [], _ => []
  | b :: bs, ws => (ws.take b.ecLen).map (·.setWidth 8) :: collectEc bs (ws.drop b.ecLen)

/-- R127 to R130: the final codeword stream from the data buffer and the values the reads returned. -/
def codewordStream (blocks : List RsBlock) (buf : ByteSeq) (ws : List Word) : ByteSeq :=
  interleave (splitBlocks blocks buf) (collectEc blocks ws)

/-- R127 to R129: the port actions of a whole encode at a version and level. -/
def encodeActions (c : Config) (table : RsBlockTable) (v : Version) (level : EcLevel) (buf : ByteSeq) :
    List HostAction :=
  bufferActions c (table v level) buf

/-- R127 to R130: the final codeword stream of a whole encode, from the values its reads returned. -/
def encodedStream (table : RsBlockTable) (v : Version) (level : EcLevel) (buf : ByteSeq) (ws : List Word) :
    ByteSeq :=
  codewordStream (table v level) buf ws

end Sys2Proof.Machine
end

