-- ==== Sys2Proof/Machine/Assembler.lean ====
section
/-! DEFINITION. The assembler of R63 and R64: a line of text to command words. It refuses an operand
outside its range and never truncates. Text is a list of characters. -/

namespace Sys2Proof.Machine

/-- R63: the word of a command whose operands lie in their ranges, and of no other. -/
def assemble (i : Instr) : Option Word := if i.wf then some (encode i) else none

/-- Assemble several commands, all or none. -/
def assembleAll : List Instr → Option (List Word)
  | [] => some []
  | i :: is => do
    let w ← assemble i
    let ws ← assembleAll is
    return w :: ws

/-- A line up to its comment (R63: `;` starts a comment). -/
def uncomment (line : List Char) : List Char := line.takeWhile (· ≠ ';')

/-- Blanks between the parts of a line (log entry 23). -/
def isBlank (ch : Char) : Bool := ch = ' ' || ch = '\t'

/-- Remove the blanks at both ends. -/
def trim (cs : List Char) : List Char := ((cs.dropWhile isBlank).reverse.dropWhile isBlank).reverse

/-- The value of a digit in a base, when it is one. -/
def digit (base : Nat) (ch : Char) : Option Nat :=
  let v :=
    if '0' ≤ ch ∧ ch ≤ '9' then ch.toNat - '0'.toNat
    else if 'a' ≤ ch ∧ ch ≤ 'f' then ch.toNat - 'a'.toNat + 10
    else if 'A' ≤ ch ∧ ch ≤ 'F' then ch.toNat - 'A'.toNat + 10
    else base
  if v < base then some v else none

/-- Digits read on from the value `acc`. -/
def digitsFrom (base : Nat) : Nat → List Char → Option Nat
  | acc, [] => some acc
  | acc, ch :: cs => do
    let d ← digit base ch
    digitsFrom base (acc * base + d) cs

/-- A number: decimal, or hexadecimal with `0x` (R63). -/
def parseNat : List Char → Option Nat
  | [] => none
  | '0' :: 'x' :: ch :: cs => digitsFrom 16 0 (ch :: cs)
  | ch :: cs => digitsFrom 10 0 (ch :: cs)

/-- A signed immediate may carry `-` (R63). -/
def parseInt : List Char → Option Int
  | '-' :: cs => (parseNat cs).map fun n => -(n : Int)
  | cs => (parseNat cs).map fun n => (n : Int)

/-- A register operand, `P0` to `P3` (R63). -/
def parseReg : List Char → Option PReg
  | ['P', '0'] => some .p0
  | ['P', '1'] => some .p1
  | ['P', '2'] => some .p2
  | ['P', '3'] => some .p3
  | _ => none

/-- All the operands of a list, when each of them is a number. -/
def parseNats : List (List Char) → Option (List Nat)
  | [] => some []
  | x :: xs => do
    let n ← parseNat x
    let ns ← parseNats xs
    return n :: ns

/-- The operands of a line, separated by commas; a line without text after the name has none. -/
def operandsOf (cs : List Char) : List (List Char) :=
  if trim cs = [] then [] else (cs.splitOn ',').map trim

/-- The names of R63 and R64. -/
inductive AsmName where
  | cmd (m : Mnemonic)
  | sload
  | pload
  | rsblock
  deriving DecidableEq, Repr

/-- The name at the head of a line, in capitals as R63 writes it. -/
def parseName : List Char → Option AsmName
  | ['G', 'L', 'O', 'G'] => some (.cmd .glog)
  | ['G', 'E', 'X', 'P'] => some (.cmd .gexp)
  | ['S', 'C', 'L', 'R'] => some (.cmd .sclr)
  | ['S', 'P', 'U', 'S', 'H'] => some (.cmd .spush)
  | ['P', 'N', 'E', 'W'] => some (.cmd .pnew)
  | ['P', 'L', 'E', 'N'] => some (.cmd .plen)
  | ['P', 'G', 'E', 'T'] => some (.cmd .pget)
  | ['P', 'M', 'U', 'L'] => some (.cmd .pmul)
  | ['P', 'M', 'O', 'D'] => some (.cmd .pmod)
  | ['G', 'E', 'N', 'P'] => some (.cmd .genp)
  | ['R', 'S', 'E', 'N', 'C'] => some (.cmd .rsenc)
  | ['E', 'L', 'E', 'N'] => some (.cmd .elen)
  | ['E', 'G', 'E', 'T'] => some (.cmd .eget)
  | ['S', 'L', 'O', 'A', 'D'] => some .sload
  | ['P', 'L', 'O', 'A', 'D'] => some .pload
  | ['R', 'S', 'B', 'L', 'O', 'C', 'K'] => some .rsblock
  | _ => none

/-- The commands a name and its operands stand for: one for a command of R63, destination first, the
expansion of R64 for a pseudo-instruction. -/
def instrsOf (name : AsmName) (ops : List (List Char)) : Option (List Instr) :=
  match name, ops with
  | .cmd .glog, [n] => (parseInt n).map fun n => [.glog n]
  | .cmd .gexp, [n] => (parseInt n).map fun n => [.gexp n]
  | .cmd .sclr, [] => some [.sclr]
  | .cmd .spush, [b] => (parseNat b).map fun b => [.spush b]
  | .cmd .pnew, [d, k] => do return [.pnew (← parseReg d) (← parseNat k)]
  | .cmd .plen, [a] => (parseReg a).map fun a => [.plen a]
  | .cmd .pget, [a, k] => do return [.pget (← parseReg a) (← parseNat k)]
  | .cmd .pmul, [d, a, b] => do return [.pmul (← parseReg d) (← parseReg a) (← parseReg b)]
  | .cmd .pmod, [d, a, b] => do return [.pmod (← parseReg d) (← parseReg a) (← parseReg b)]
  | .cmd .genp, [d, n] => do return [.genp (← parseReg d) (← parseNat n)]
  | .cmd .rsenc, [n] => (parseNat n).map fun n => [.rsenc n]
  | .cmd .elen, [] => some [.elen]
  | .cmd .eget, [k] => (parseNat k).map fun k => [.eget k]
  | .sload, bs => (parseNats bs).map sload
  | .pload, d :: k :: bs => do return pload (← parseReg d) (← parseNat k) (← parseNats bs)
  | .rsblock, n :: bs => do return rsblock (← parseNat n) (← parseNats bs)
  | _, _ => none

/-- One line of assembly (R63, R64); a line of nothing but blanks and a comment gives no command. -/
def parseLine (line : List Char) : Option (List Instr) :=
  if trim (uncomment line) = [] then some []
  else do
    let name ← parseName ((trim (uncomment line)).takeWhile fun ch => !isBlank ch)
    instrsOf name (operandsOf ((trim (uncomment line)).dropWhile fun ch => !isBlank ch))

/-- The words of one line of assembly. -/
def assembleLine (line : List Char) : Option (List Word) := do
  let is ← parseLine line
  assembleAll is

end Sys2Proof.Machine
end

