-- ==== Sys2Proof/Safety.lean ====
section
/-! DEFINITION. The terms in which claims about the engine are stated: the field and its polynomials
written down without the tables, the invariant of the state, and when two states are equal to a host. -/

namespace Sys2Proof.Machine

/-- Multiplication by the generator 2 under `PRIM_POLY = 0x11D` (R8, R23), on bytes. -/
def timesAlpha (a : Byte) : Byte := if a.msb then (a <<< 1) ^^^ 0x1D else a <<< 1

/-- `a * ALPHA^k`. -/
def timesPower (a : Byte) : Nat → Byte
  | 0 => a
  | k + 1 => timesAlpha (timesPower a k)

/-- `ALPHA^k` in the field (R21). -/
def alphaPow (k : Nat) : Byte := timesPower 1 k

/-- The field product in the polynomial basis (R12, R51): bit `k` of `b` adds `a * x^k`. -/
def fieldMul (a b : Byte) : Byte :=
  (List.range 8).foldr (fun k acc => (if b.getLsbD k then timesPower a k else 0) ^^^ acc) 0

/-- Slot `k` of the product of two sequences, most significant first: the XOR of `a[i] * b[k - i]`. -/
def productSlot (a b : ByteSeq) (k : Nat) : Byte :=
  (List.range a.length).foldr
    (fun i acc => (if i ≤ k ∧ k - i < b.length then fieldMul (a.getD i 0) (b.getD (k - i) 0) else 0) ^^^ acc) 0

/-- The product of two non-empty sequences over the field, of length `len(a) + len(b) - 1` (R101). -/
def product (a b : ByteSeq) : ByteSeq :=
  (List.range (a.length + b.length - 1)).map (productSlot a b)

/-- The XOR of two sequences of one length: the sum of the polynomials (R12). -/
def xorSeq (a b : ByteSeq) : ByteSeq := List.zipWith (· ^^^ ·) a b

/-- A polynomial in the sense of R13: its first element, when it has one, is non-zero. -/
abbrev IsPoly (p : ByteSeq) : Prop := strip p = p

/-- No coefficient is zero (R103, R107). -/
abbrev NoZero (p : ByteSeq) : Prop := ∀ c ∈ p, c ≠ 0

/-- The tables hold what R23 writes: filling them again would change nothing (R25). -/
abbrev Tables.Ready (fp : FieldParams) (t : Tables) : Prop := t.fill fp = t

/-- The reachable values of `STATUS` (R32): `0x00`, `0x01`, and `0x02 | (c << 4)` or `0x03 | (c << 4)`
for `c` in 1 to 4. -/
def legalStatus : List Word :=
  [0x00, 0x01, 0x12, 0x13, 0x22, 0x23, 0x32, 0x33, 0x42, 0x43]

/-- The parameters this spec's rules stand for: `PRIM_POLY` and `ALPHA` are the defaults (I3), `BASE`
is a multiple of 4 (R40), and `NPOLY` is at most 4 (I4). -/
abbrev LegalConfig (c : Config) : Prop :=
  c.field = FieldParams.standard ∧ c.base % 4 = 0 ∧ c.npoly ≤ 4

/-- The invariant of R93, R25 and R32 for a whole state. -/
structure Inv (s : State) : Prop where
  /-- The parameters are legal. -/
  legal : LegalConfig s.cfg
  /-- R25: with `TRDY = 1` the tables have the contents of R21 and R22. -/
  ready : s.engine.trdy = true → s.engine.tables.Ready s.cfg.field
  /-- R27, R93: every register holds a polynomial. -/
  poly : ∀ r, IsPoly (s.engine.p.read r)
  /-- R27, R93: no register is longer than `PMAX`. -/
  polyLength : ∀ r, (s.engine.p.read r).length ≤ s.cfg.pmax
  /-- R20: a register from `P[NPOLY]` on does not exist, and its place stays empty. -/
  absent : ∀ r, s.cfg.has r = false → s.engine.p.read r = []
  /-- R29, R93. -/
  sbLength : s.engine.sb.length ≤ s.cfg.smax
  /-- R30, R93. -/
  ebLength : s.engine.eb.length ≤ s.cfg.emax
  /-- R32: `STATUS` has one of its reachable values. -/
  status : s.engine.status ∈ legalStatus
  /-- R33: outside the fault state the fault record is still at its reset value. -/
  record : s.engine.faulted = false → s.engine.finfo = 0 ∧ s.engine.farg = 0

/-- Two engines a host cannot tell apart: they agree on everything but table contents that the spec
leaves unspecified, which are all of them while `TRDY = 0` and `LOG[0]` afterwards (R22, R25, R156). -/
structure Alike (e f : Engine) : Prop where
  p : e.p = f.p
  sb : e.sb = f.sb
  eb : e.eb = f.eb
  res : e.res = f.res
  status : e.status = f.status
  finfo : e.finfo = f.finfo
  farg : e.farg = f.farg
  exp : e.trdy = true → e.tables.exp = f.tables.exp
  log : e.trdy = true → ∀ v, 1 ≤ v → v ≤ 255 → e.tables.log.getD v 0 = f.tables.log.getD v 0

/-- Two outcomes of one step that a host cannot tell apart. -/
def AlikeOutcome (a b : Host.Outcome State Fault Refusal) : Prop :=
  match a, b with
  | .next s, .next t =>
    Alike s.engine t.engine ∧ s.cfg = t.cfg ∧ s.pending = t.pending ∧ s.returned = t.returned
  | .fault _, .fault _ => True
  | .refused r, .refused q => r = q
  | _, _ => False

/-- The opcode table of R58 as the spec writes it: mnemonic, `match`, `mask`. -/
def opcodeTable : List (Mnemonic × Word × Word) :=
  [(.glog, 0x01000000, 0xFFFF0000), (.gexp, 0x02000000, 0xFFFF0000),
   (.sclr, 0x10000000, 0xFFFFFFFF), (.spush, 0x11000000, 0xFFFFFF00),
   (.pnew, 0x12000000, 0xFF3F0000), (.plen, 0x13000000, 0xFFCFFFFF),
   (.pget, 0x14000000, 0xFFCF0000), (.pmul, 0x20000000, 0xFF03FFFF),
   (.pmod, 0x21000000, 0xFF03FFFF), (.genp, 0x22000000, 0xFF3FFF00),
   (.rsenc, 0x30000000, 0xFFFFFF00), (.elen, 0x31000000, 0xFFFFFFFF),
   (.eget, 0x32000000, 0xFFFF0000)]

/-- The generator polynomial of degree `n` over the field: the product of `[1, ALPHA^i]` for `i < n`
(R109), written without the tables. -/
def generator (n : Nat) : ByteSeq :=
  (List.range n).foldl (fun a i => product a [1, alphaPow i]) [1]

/-- Where R130's pass puts element `i` of block `b`: after the elements of smaller index of every block,
and after element `i` of the earlier blocks that are long enough to have one. -/
def slotOf (blocks : List ByteSeq) (b i : Nat) : Nat :=
  (blocks.map fun d => min i d.length).sum + (blocks.take b).countP fun d => decide (i < d.length)

/-- A sequence right-aligned in `n` bytes, zeros on the left (R115, R116). -/
def rightAlign (n : Nat) (r : ByteSeq) : ByteSeq := List.replicate (n - r.length) 0 ++ r

/-- The data polynomial of a sequence shifted by `k`: leading zeros dropped after the zeros are
appended (R85, R87). -/
def shifted (s : ByteSeq) (k : Nat) : ByteSeq := (s ++ List.replicate k 0).dropWhile (· == 0)

/-- The engine after `tables_init()` (R24): the tables filled and `TRDY` set. Where they were ready
before, this is the engine itself. -/
def Engine.afterInit (fp : FieldParams) (e : Engine) : Engine :=
  { e with tables := e.tables.fill fp, status := e.status ||| 0x1 }

/-- The engine after a fault: `STATUS`, `FINFO` and `FARG` as given, all else kept (R140). -/
def Engine.recordFault (e : Engine) (status finfo farg : Word) : Engine :=
  { e with status := status, finfo := finfo, farg := farg }

/-- The answer of a command that leaves the engine `e`. -/
def nextEngine (s : State) (e : Engine) : Host.Outcome State Fault Refusal := .next { s with engine := e }

/-- The host's next action is the write of the word `w` to `CMD`, and `rest` follows. -/
abbrev State.Writes (s : State) (w : Word) (rest : List HostAction) : Prop :=
  s.pending = .write s.cfg.base 32 w :: rest

/-- The host's next action is reset. -/
abbrev State.AtReset (s : State) : Prop := s.pending.head? = some .reset

/-- The engine takes commands: it is not in the fault state, and the invariant holds. -/
abbrev Live (s : State) : Prop := Inv s ∧ s.engine.faulted = false

end Sys2Proof.Machine
end

