-- ==== Sys2Proof/Certificates/Slice0/Obligations.lean ====
section
/-! DEFINITION. The statements about the engine, each a rule of spec/ or a consequence of several. A
result is stated as the whole next state, so that what a command leaves unchanged is stated with it. -/

open Sys2Proof Sys2Proof.Machine

/-! ### Encoding -/

/-- R65: the worked encodings decode to the assembly beside them, and the illegal words to nothing. -/
def Obligations.WorkedEncodingsDecode : Prop :=
  decode 0x01000002 = .ok (.glog 2) ∧ decode 0x0100FFFF = .ok (.glog (-1)) ∧
  decode 0x020001FC = .ok (.gexp 508) ∧ decode 0x0200FF02 = .ok (.gexp (-254)) ∧
  decode 0x10000000 = .ok .sclr ∧ decode 0x110000EC = .ok (.spush 236) ∧
  decode 0x1280000A = .ok (.pnew .p2 10) ∧ decode 0x13300000 = .ok (.plen .p3) ∧
  decode 0x14100007 = .ok (.pget .p1 7) ∧ decode 0x20180000 = .ok (.pmul .p0 .p1 .p2) ∧
  decode 0x21C40000 = .ok (.pmod .p3 .p0 .p1) ∧ decode 0x22400007 = .ok (.genp .p1 7) ∧
  decode 0x3000000A = .ok (.rsenc 10) ∧ decode 0x31000000 = .ok .elen ∧
  decode 0x32000009 = .ok (.eget 9) ∧
  (∃ r, decode 0x00000000 = .error r) ∧ (∃ r, decode 0x10000001 = .error r) ∧
  (∃ r, decode 0x11000100 = .error r) ∧ (∃ r, decode 0x13010000 = .error r) ∧
  ∃ r, decode 0x13400000 = .error r

/-- Decoding the word of a well-formed command gives the command back, every operand at every value. -/
def Obligations.DecodeOfEncode : Prop :=
  ∀ i : Instr, i.wf = true → decode (encode i) = .ok i

/-- A word that decodes is the word of the well-formed command it decodes to: no bit of it is dropped,
so the word a fault records (R137) is the word that was written. -/
def Obligations.EncodeOfDecode : Prop :=
  ∀ (w : Word) (i : Instr), decode w = .ok i → i.wf = true ∧ encode i = w

/-- R58: a word is a row's command exactly when `w & mask = match`; R61: a word that matches no row is
illegal. -/
def Obligations.DecodeFollowsTheOpcodeTable : Prop :=
  ∀ w : Word,
    (∀ row ∈ opcodeTable, w &&& row.2.2 = row.2.1 ↔ ∃ i, decode w = .ok i ∧ i.mnemonic = row.1) ∧
    ((∀ row ∈ opcodeTable, w &&& row.2.2 ≠ row.2.1) ↔ ∃ r, decode w = .error r)

/-- R62: how many words each command has, and how many legal words there are. -/
def Obligations.LegalWordCount : Prop :=
  (∀ m : Mnemonic, Set.ncard {w : Word | ∃ i, decode w = .ok i ∧ i.mnemonic = m} =
    match m with
    | .glog => 65536
    | .gexp => 65536
    | .sclr => 1
    | .spush => 256
    | .pnew => 4 * 65536
    | .plen => 4
    | .pget => 4 * 65536
    | .pmul => 64
    | .pmod => 64
    | .genp => 4 * 256
    | .rsenc => 256
    | .elen => 1
    | .eget => 65536) ∧
  Set.ncard {w : Word | ∃ i, decode w = .ok i} = 722566

/-- R63: an assembler refuses an operand outside its range and never truncates. -/
def Obligations.AssemblerRefusesAndNeverTruncates : Prop :=
  ∀ i : Instr, (i.wf = false → assemble i = none) ∧
    (i.wf = true → ∃ w, assemble i = some w ∧ decode w = .ok i)

/-! ### The step, the ports and reset -/

/-- R60: when the host writes the word of a command to `CMD`, the step is `exec` of the command at the
state with that action taken. `withFetchWord` puts exactly such a write first. -/
def Obligations.StepRunsTheDecodedCommand : Prop :=
  (∀ (s : State) (w : Word) (rest : List HostAction) (i : Instr),
    LegalConfig s.cfg → s.Writes w rest → decode w = .ok i → step s = exec i { s with pending := rest }) ∧
  (∀ (s : State) (w : Word) (i : Instr),
    LegalConfig s.cfg → decode w = .ok i → step (s.withFetchWord 32 w.toNat) = exec i s)

/-- The model's choice of log entry 3: with no host action left, a step changes nothing. -/
def Obligations.NoHostActionNoChange : Prop :=
  ∀ s : State, s.pending = [] → step s = .next s

/-- R61, R137, R140: a word that matches no row of the opcode table, written outside the fault state,
raises IllegalCommand: `FAULT` and cause 2 are set in `STATUS`, `FINFO` is the word, `FARG` is 0, and
nothing else changes, the tables and `TRDY` included. -/
def Obligations.IllegalWordRaisesIllegalCommand : Prop :=
  ∀ (s : State) (w : Word) (rest : List HostAction), Live s → s.Writes w rest →
    (∀ row ∈ opcodeTable, w &&& row.2.2 ≠ row.2.1) →
    step s = .next { s with
      pending := rest
      engine := s.engine.recordFault (s.engine.status ||| 0x22) w 0 }

/-- R141: in the fault state every write to `CMD` is ignored entirely, whatever the word. -/
def Obligations.FaultStateIgnoresCommands : Prop :=
  (∀ (s : State) (w : Word) (rest : List HostAction), LegalConfig s.cfg → s.engine.faulted = true →
    s.Writes w rest → step s = .next { s with pending := rest }) ∧
  (∀ (s : State) (i : Instr), s.engine.faulted = true → exec i s = .next s)

/-- R33, R141: in the fault state no step but reset changes anything in the engine, the fault record
included. -/
def Obligations.FaultStateHoldsTheEngine : Prop :=
  ∀ s t : State, s.engine.faulted = true → ¬ s.AtReset → step s = .next t → t.engine = s.engine

/-- R157: reset is the only way to leave the fault state and the only way `TRDY` returns to 0. -/
def Obligations.OnlyResetClearsFaultAndReady : Prop :=
  ∀ s t : State, step s = .next t →
    (s.engine.faulted = true → t.engine.faulted = false → s.AtReset) ∧
    (s.engine.trdy = true → t.engine.trdy = false → s.AtReset)

/-- R40, R41: the value each of the eight ports returns, in any state; the engine is unchanged, and a
second read right after returns the same value. -/
def Obligations.ReadsReturnThePortTable : Prop :=
  ∀ (s : State) (k : Nat) (rest : List HostAction), LegalConfig s.cfg → k < 8 →
    let v : Word := match k with
      | 1 => s.engine.status
      | 2 => s.engine.res
      | 3 => s.engine.finfo
      | 4 => s.engine.farg
      | _ => 0
    (s.pending = .read (s.cfg.base + 4 * k) 32 :: rest →
      step s = .next { s with pending := rest, returned := s.returned ++ [v] }) ∧
    (s.pending = .read (s.cfg.base + 4 * k) 32 :: .read (s.cfg.base + 4 * k) 32 :: rest →
      core.run 2 s = .next { s with pending := rest, returned := s.returned ++ [v, v] })

/-- R43: a write to a read-only or reserved port and a read of a reserved port set no bit and change
nothing; such a read returns 0 (R40). -/
def Obligations.PointlessAccessesChangeNothing : Prop :=
  ∀ (s : State) (k : Nat) (v : Word) (rest : List HostAction), LegalConfig s.cfg → k < 8 →
    (1 ≤ k → s.pending = .write (s.cfg.base + 4 * k) 32 v :: rest →
      step s = .next { s with pending := rest }) ∧
    (5 ≤ k → s.pending = .read (s.cfg.base + 4 * k) 32 :: rest →
      step s = .next { s with pending := rest, returned := s.returned ++ [0] })

/-- R44: an access outside the window, of another width, or at an address that is not a multiple of 4
is refused, and it is the only thing a step ever refuses. -/
def Obligations.OnlyMeaninglessAccessesAreRefused : Prop :=
  ∀ s : State, LegalConfig s.cfg →
    ((∃ r, step s = .refused r) ↔
      ∃ addr bits, (s.pending.head? = some (.read addr bits) ∨
          ∃ v, s.pending.head? = some (.write addr bits v)) ∧
        (addr < s.cfg.base ∨ s.cfg.base + 32 ≤ addr ∨ bits ≠ 32 ∨ addr % 4 ≠ 0)) ∧
    ((¬ ∃ r, step s = .refused r) → ∃ t, step s = .next t)

/-- R48, R160: a read of `RES` or `STATUS` right after a write to `CMD` returns what that command left. -/
def Obligations.ReadSeesTheLatestCommand : Prop :=
  ∀ (s : State) (w : Word) (rest : List HostAction), LegalConfig s.cfg →
    s.Writes w (.read (s.cfg.base + 4) 32 :: .read (s.cfg.base + 8) 32 :: rest) →
    ∃ t, step s = .next t ∧ core.run 3 s = .next { t with
      pending := rest
      returned := s.returned ++ [t.engine.status, t.engine.res] }

/-- R155: `reset()`, in any state, sets every item to its reset value. The table contents, which the
rule leaves unspecified, are the model's choice (log entry 6) and are not stated. -/
def Obligations.ResetSetsEveryItem : Prop :=
  ∀ (s : State) (rest : List HostAction), s.pending = .reset :: rest →
    ∃ t, step s = .next t ∧ t.engine.status = 0 ∧ t.engine.trdy = false ∧ t.engine.faulted = false ∧ t.engine.fcause = 0 ∧
      t.engine.res = 0 ∧ t.engine.finfo = 0 ∧ t.engine.farg = 0 ∧ t.engine.sb = [] ∧
      t.engine.eb = [] ∧ ∀ r, t.engine.p.read r = []

/-- The model's choice of log entry 20: reset keeps the parameters, the host's later actions and what
its reads have returned. -/
def Obligations.ResetKeepsTheHostsSide : Prop :=
  ∀ (s t : State) (rest : List HostAction), s.pending = .reset :: rest → step s = .next t →
    t.cfg = s.cfg ∧ t.pending = rest ∧ t.returned = s.returned

/-! ### Whole-machine rules -/

/-- The invariant holds right after reset. -/
def Obligations.InvariantAtReset : Prop := Inv State.reset

/-- R93, R25, R32: every step keeps the invariant, from every state that has it. -/
def Obligations.StepKeepsTheInvariant : Prop :=
  ∀ s t : State, Inv s → step s = .next t → Inv t

/-- R24: a table-using command runs `tables_init()` first, so it leaves `TRDY = 1` and the tables filled
even when it goes on to fault; tables that were ready stay as they are. No other command touches
them. A command that names a register the engine lacks is none of its commands (log entry 24). -/
def Obligations.TableUsersInitialiseTheTables : Prop :=
  ∀ (i : Instr) (s : State), s.engine.faulted = false → s.cfg.admits i = true → ∃ t, exec i s = .next t ∧
    (i.mnemonic ∈ [.glog, .gexp, .pmul, .pmod, .genp, .rsenc] → t.engine.trdy = true ∧
      (s.engine.trdy = false → t.engine.tables = s.engine.tables.fill s.cfg.field) ∧
      (s.engine.trdy = true → t.engine.tables = s.engine.tables)) ∧
    (i.mnemonic ∉ [.glog, .gexp, .pmul, .pmod, .genp, .rsenc] →
      t.engine.trdy = s.engine.trdy ∧ t.engine.tables = s.engine.tables)

/-- R25: once `TRDY = 1` no step but reset changes an entry of a table, and `TRDY` stays 1. -/
def Obligations.ReadyTablesNeverChange : Prop :=
  ∀ s t : State, s.engine.trdy = true → ¬ s.AtReset → step s = .next t →
    t.engine.tables = s.engine.tables ∧ t.engine.trdy = true

/-- R20, the column "written by": a command that is not listed for an item leaves it as it is, and no
command touches a polynomial register other than its destination or anything outside the engine. The
tables change through `tables_init()` alone, `FINFO` and `FARG` at fault entry alone, and `STATUS` in
`TRDY` alone but for fault entry, which writes `FAULT` and `FCAUSE` too. -/
def Obligations.CommandsWriteOnlyWhatTheyAreListedFor : Prop :=
  ∀ (i : Instr) (s t : State), exec i s = .next t →
    (i.mnemonic ∉ [.glog, .gexp, .plen, .pget, .elen, .eget] → t.engine.res = s.engine.res) ∧
    (i.mnemonic ∉ [.sclr, .spush] → t.engine.sb = s.engine.sb) ∧
    (i.mnemonic ≠ .rsenc → t.engine.eb = s.engine.eb) ∧
    (∀ r, (∀ k, i ≠ .pnew r k) → (∀ a b, i ≠ .pmul r a b) → (∀ a b, i ≠ .pmod r a b) →
      (∀ n, i ≠ .genp r n) → t.engine.p.read r = s.engine.p.read r) ∧
    (t.engine.tables = s.engine.tables ∨
      i.mnemonic ∈ [.glog, .gexp, .pmul, .pmod, .genp, .rsenc] ∧ s.engine.trdy = false ∧
        t.engine.trdy = true ∧ t.engine.tables = s.engine.tables.fill s.cfg.field) ∧
    (t.engine.faulted = s.engine.faulted →
      t.engine.finfo = s.engine.finfo ∧ t.engine.farg = s.engine.farg ∧
      t.engine.status ||| 0x1 = s.engine.status ||| 0x1) ∧
    t.engine.status &&& 0xFFFFFF0C = s.engine.status &&& 0xFFFFFF0C ∧
    t.cfg = s.cfg ∧ t.pending = s.pending ∧ t.returned = s.returned

/-- R140: a command that faults writes `STATUS.FAULT`, `STATUS.FCAUSE`, `FINFO` (its word) and `FARG`,
sets `TRDY` when it uses the tables, and leaves `RES`, `SB`, `EB` and every `P[r]` as they were. (A
command that names a register the engine lacks is an illegal one and uses no table, log entry 24.) -/
def Obligations.FaultingCommandHasNoPartialEffect : Prop :=
  ∀ (i : Instr) (s t : State), s.engine.faulted = false → exec i s = .next t → t.engine.faulted = true →
    t.engine.res = s.engine.res ∧ t.engine.sb = s.engine.sb ∧ t.engine.eb = s.engine.eb ∧
    (∀ r, t.engine.p.read r = s.engine.p.read r) ∧ t.engine.finfo = encode i ∧
    t.engine.trdy = (s.engine.trdy ||
      (s.cfg.admits i && decide (i.mnemonic ∈ [.glog, .gexp, .pmul, .pmod, .genp, .rsenc]))) ∧
    1 ≤ t.engine.fcause.toNat ∧ t.engine.fcause.toNat ≤ 4

/-- R136: which faults a command of the engine can raise. GEXP, SCLR, PLEN and ELEN raise nothing. -/
def Obligations.EachCommandRaisesOnlyItsFaults : Prop :=
  ∀ (i : Instr) (s t : State), Live s → s.cfg.admits i = true → exec i s = .next t → t.engine.faulted = true →
    match i with
    | .glog n => t.engine.fcause = 1 ∧ (n < 1 ∨ 255 < n)
    | .gexp _ => False
    | .sclr => False
    | .spush _ => t.engine.fcause = 3
    | .pnew _ _ => t.engine.fcause = 3
    | .plen _ => False
    | .pget _ _ => t.engine.fcause = 4
    | .pmul _ _ _ => t.engine.fcause = 3 ∨ t.engine.fcause = 1
    | .pmod _ _ _ => t.engine.fcause = 1
    | .genp _ n => (t.engine.fcause = 3 ∧ s.cfg.pmax < n + 1) ∨ (t.engine.fcause = 1 ∧ 255 < n)
    | .rsenc n => t.engine.fcause = 3 ∨ (t.engine.fcause = 1 ∧ 255 ≤ n)
    | .elen => False
    | .eget _ => t.engine.fcause = 4

/-- R156: what the spec leaves unspecified cannot be observed. From two states that differ only in
table contents that are unspecified, a step answers alike, and so on for ever. -/
def Obligations.UnspecifiedTablesAreUnobservable : Prop :=
  ∀ s t : State, Inv s → Inv t → Alike s.engine t.engine → s.cfg = t.cfg → s.pending = t.pending →
    s.returned = t.returned → AlikeOutcome (step s) (step t)

/-- The model's choice of log entry 24: a command that names a register from `P[NPOLY]` on is an illegal
command, before `tables_init()`. With four registers every command is one of the engine's (R56). -/
def Obligations.AbsentRegisterIsIllegalCommand : Prop :=
  (∀ (s : State) (i : Instr), Live s → s.cfg.admits i = false →
    exec i s = nextEngine s (s.engine.recordFault (s.engine.status ||| 0x22) (encode i) 0)) ∧
  (∀ (s : State) (i : Instr), Live s → 4 ≤ s.cfg.npoly → s.cfg.admits i = true) ∧
  ∀ (s : State) (r : PReg), Inv s → s.cfg.has r = false → s.engine.p.read r = []

/-- R47: no rule reads `HOST_BYTE_ORDER`: with another byte order the step is the same. -/
def Obligations.ByteOrderIsNeverRead : Prop :=
  ∀ (s : State) (o : ByteOrder),
    match step s, step { s with cfg := { s.cfg with hostByteOrder := o } } with
    | .next t, .next t' => t' = { t with cfg := { t.cfg with hostByteOrder := o } }
    | .refused r, .refused r' => r = r'
    | _, _ => False

/-- R31: with the default capacities a result is at most 256, so `RES` stays below 2^9, whatever the
other parameters. -/
def Obligations.ResultsStayAtMost256 : Prop :=
  ∀ s t : State, Inv s → s.cfg.pmax = 256 → s.cfg.emax = 255 → s.engine.res.toNat ≤ 256 → step s = .next t →
    t.engine.res.toNat ≤ 256

/-- R27, R28: writing a register makes it read as written and leaves the other three alone. -/
def Obligations.RegisterReadAfterWrite : Prop :=
  ∀ (p : PolyRegs) (rd r : PReg) (v : ByteSeq),
    (p.write rd v).read r = if r = rd then v else p.read r

/-! ### The tables and the scalar functions -/

/-- R21 to R23: what `tables_init()` leaves in the tables, from any contents before: `EXP[i] = ALPHA^i`
for all 256 entries, the last repeating the first; `LOG` its inverse on 1 to 255 with `LOG[1] = 0`; and
`LOG[0]` not written. -/
def Obligations.TablesHoldThePowersOfAlpha : Prop :=
  ∀ t : Tables,
    (∀ i, i ≤ 255 → (t.fill .standard).exp.getD i 0 = alphaPow i) ∧
    (∀ i, i ≤ 254 → ((t.fill .standard).log.getD (alphaPow i).toNat 0).toNat = i) ∧
    (∀ v, 1 ≤ v → v ≤ 255 → alphaPow ((t.fill .standard).log.getD v 0).toNat = BitVec.ofNat 8 v ∧
      ((t.fill .standard).log.getD v 0).toNat ≤ 254) ∧
    (t.fill .standard).log.getD 0 0 = t.log.getD 0 0 ∧ alphaPow 255 = 1

/-- R77: the loops leave an index in 0 to 255 that differs from `n` by a multiple of 255; it is 255
exactly for a positive multiple of 255, where the table repeats entry 0; and `gexp` is never 0. -/
def Obligations.NormalisationLandsInTheTable : Prop :=
  ∀ n : Int, 0 ≤ normalise n ∧ normalise n ≤ 255 ∧ normalise n % 255 = n % 255 ∧
    (normalise n = 255 ↔ 0 < n ∧ n % 255 = 0) ∧
    (∀ t : Tables, t.Ready .standard →
      gexp t n = t.exp.getD (normalise n).toNat 0 ∧ gexp t n ≠ 0 ∧
      t.exp.getD 255 0 = 1 ∧ t.exp.getD 0 0 = 1)

/-- R79: on non-zero elements `gmul` is the field product, non-zero, commutative and associative with
identity 1; on a zero it raises DomainError(0). -/
def Obligations.GmulIsTheFieldProduct : Prop :=
  ∀ t : Tables, t.Ready .standard → ∀ a b : Byte,
    (a = 0 ∨ b = 0 → gmul t a b = .error ⟨.domainError, 0⟩) ∧
    (a ≠ 0 → b ≠ 0 → gmul t a b = .ok (fieldMul a b) ∧ fieldMul a b ≠ 0 ∧
      fieldMul a b = fieldMul b a ∧ fieldMul a 1 = a ∧
      ∀ c, c ≠ 0 → fieldMul (fieldMul a b) c = fieldMul a (fieldMul b c))

/-- R80: the word of GLOG; GLOG of an element gives its logarithm, the one exponent in 0 to 254; GLOG of any
other integer raises DomainError with `FARG` its two's-complement form, and `RES` is unchanged. -/
def Obligations.GlogGivesTheLogarithmOrFaults : Prop :=
  (∀ n : Int, -32768 ≤ n → n ≤ 32767 →
    decode (0x01000000 ||| (BitVec.ofInt 32 n &&& 0xFFFF)) = .ok (.glog n)) ∧
  (∀ (s : State) (n : Nat), Live s → 1 ≤ n → n ≤ 255 →
    ∃ l : Nat, l ≤ 254 ∧ alphaPow l = BitVec.ofNat 8 n ∧
      (∀ l', l' ≤ 254 → alphaPow l' = BitVec.ofNat 8 n → l' = l) ∧
      exec (.glog n) s =
        nextEngine s { s.engine.afterInit s.cfg.field with res := BitVec.ofNat 32 l }) ∧
  (∀ (s : State) (n : Int), Live s → n < 1 ∨ 255 < n →
    exec (.glog n) s = nextEngine s
      ((s.engine.afterInit s.cfg.field).recordFault 0x13 (encode (.glog n)) (BitVec.ofInt 32 n)))

/-- R81: the word of GEXP; GEXP gives `ALPHA^n` for every integer `n`, negative ones too, and never
faults. -/
def Obligations.GexpGivesThePower : Prop :=
  (∀ n : Int, -32768 ≤ n → n ≤ 32767 →
    decode (0x02000000 ||| (BitVec.ofInt 32 n &&& 0xFFFF)) = .ok (.gexp n)) ∧
  ∀ (s : State) (n : Int), Live s →
    exec (.gexp n) s = nextEngine s
      { s.engine.afterInit s.cfg.field with res := (alphaPow (n % 255).toNat).setWidth 32 }

/-- R84: the host's field product: GLOG a, GLOG b, and GEXP of the sum of the two results. -/
def Obligations.HostComputesAFieldProduct : Prop :=
  ∀ (s : State) (a b : Nat), Live s → 1 ≤ a → a ≤ 255 → 1 ≤ b → b ≤ 255 →
    ∃ s1 s2 s3 : State, exec (.glog a) s = .next s1 ∧ exec (.glog b) s1 = .next s2 ∧
      exec (.gexp (s1.engine.res.toNat + s2.engine.res.toNat)) s2 = .next s3 ∧
      s1.engine.res.toNat + s2.engine.res.toNat ≤ 508 ∧
      s3.engine.res = (fieldMul (BitVec.ofNat 8 a) (BitVec.ofNat 8 b)).setWidth 32

/-! ### Construction and reading -/

/-- R85, R87: `construct(s, k)` is a polynomial, empty for an all-zero `s` whatever `k` is, and else of
length `len(s) - lz + k` where `lz` is the number of leading zeros. -/
def Obligations.ConstructDropsLeadingZeros : Prop :=
  ∀ (s : ByteSeq) (k : Nat), construct s k = shifted s k ∧ IsPoly (construct s k) ∧
    ((∀ c ∈ s, c = 0) → construct s k = []) ∧
    ((∃ c ∈ s, c ≠ 0) →
      (construct s k).length = s.length - (s.takeWhile (· == 0)).length + k)

/-- R88: the word of SCLR; SCLR empties `SB` and changes nothing else. -/
def Obligations.SclrEmptiesTheStagingBuffer : Prop :=
  decode 0x10000000 = .ok .sclr ∧
  ∀ s : State, s.engine.faulted = false → exec .sclr s = nextEngine s { s.engine with sb := [] }

/-- R89: the word of SPUSH; SPUSH appends its byte, and on a full buffer raises
LengthFault(SMAX + 1). -/
def Obligations.SpushAppendsOrFaults : Prop :=
  (∀ b : Nat, b ≤ 255 → decode (0x11000000 ||| BitVec.ofNat 32 b) = .ok (.spush b)) ∧
  ∀ (s : State) (b : Nat), Live s → b ≤ 255 →
    (s.engine.sb.length < s.cfg.smax →
      exec (.spush b) s = nextEngine s { s.engine with sb := s.engine.sb ++ [BitVec.ofNat 8 b] }) ∧
    (s.engine.sb.length = s.cfg.smax →
      exec (.spush b) s = nextEngine s
        (s.engine.recordFault (s.engine.status ||| 0x32) (encode (.spush b)) (BitVec.ofNat 32 (s.cfg.smax + 1))))

/-- R90: the word of PNEW; PNEW writes the polynomial of `SB` shifted by `k`, and raises
LengthFault(len) when it would be longer than `PMAX`; `SB` is unchanged. -/
def Obligations.PnewConstructsOrFaults : Prop :=
  (∀ (rd : PReg) (k : Nat), k ≤ 65535 →
    decode (0x12000000 ||| (rd.num.setWidth 32 <<< 22) ||| BitVec.ofNat 32 k) = .ok (.pnew rd k)) ∧
  ∀ (s : State) (rd : PReg) (k : Nat), Live s → s.cfg.has rd = true →
    ((shifted s.engine.sb k).length ≤ s.cfg.pmax →
      exec (.pnew rd k) s = nextEngine s
        { s.engine with p := s.engine.p.write rd (shifted s.engine.sb k) }) ∧
    (s.cfg.pmax < (shifted s.engine.sb k).length →
      exec (.pnew rd k) s = nextEngine s
        (s.engine.recordFault (s.engine.status ||| 0x32) (encode (.pnew rd k))
          (BitVec.ofNat 32 (shifted s.engine.sb k).length)))

/-- R91, R123: the words of PLEN and ELEN; they give a length and change nothing but `RES`. -/
def Obligations.LengthsAreRead : Prop :=
  (∀ ra : PReg, decode (0x13000000 ||| (ra.num.setWidth 32 <<< 20)) = .ok (.plen ra)) ∧
  decode 0x31000000 = .ok .elen ∧
  ∀ s : State, s.engine.faulted = false →
    (∀ ra, s.cfg.has ra = true → exec (.plen ra) s =
      nextEngine s { s.engine with res := BitVec.ofNat 32 (s.engine.p.read ra).length }) ∧
    exec .elen s = nextEngine s { s.engine with res := BitVec.ofNat 32 s.engine.eb.length }

/-- R92: the word of PGET; PGET gives coefficient `k`, and raises IndexFault(k) when `k` is not below
the length. -/
def Obligations.PgetReadsOrFaults : Prop :=
  (∀ (ra : PReg) (k : Nat), k ≤ 65535 →
    decode (0x14000000 ||| (ra.num.setWidth 32 <<< 20) ||| BitVec.ofNat 32 k) = .ok (.pget ra k)) ∧
  ∀ (s : State) (ra : PReg) (k : Nat), Live s → s.cfg.has ra = true →
    (∀ h : k < (s.engine.p.read ra).length,
      exec (.pget ra k) s = nextEngine s { s.engine with res := ((s.engine.p.read ra)[k]).setWidth 32 }) ∧
    ((s.engine.p.read ra).length ≤ k →
      exec (.pget ra k) s = nextEngine s
        (s.engine.recordFault (s.engine.status ||| 0x42) (encode (.pget ra k)) (BitVec.ofNat 32 k)))

/-! ### Polynomial arithmetic -/

/-- R101, R102: PMUL of two polynomials without zero coefficients gives their product over the field,
and of an empty one gives `[]` whatever the other holds. The operands are read before the write. -/
def Obligations.PmulGivesTheProduct : Prop :=
  ∀ (s : State) (rd ra rb : PReg), Live s →
    s.cfg.has rd = true → s.cfg.has ra = true → s.cfg.has rb = true →
    (s.engine.p.read ra = [] ∨ s.engine.p.read rb = [] →
      exec (.pmul rd ra rb) s = nextEngine s
        { s.engine.afterInit s.cfg.field with p := s.engine.p.write rd [] }) ∧
    (s.engine.p.read ra ≠ [] → s.engine.p.read rb ≠ [] →
      (s.engine.p.read ra).length + (s.engine.p.read rb).length - 1 ≤ s.cfg.pmax →
      NoZero (s.engine.p.read ra) → NoZero (s.engine.p.read rb) →
      exec (.pmul rd ra rb) s = nextEngine s
        { s.engine.afterInit s.cfg.field with
          p := s.engine.p.write rd (product (s.engine.p.read ra) (s.engine.p.read rb)) })

/-- R102, R103, R143: PMUL raises LengthFault when the product would be longer than `PMAX`, zero
coefficients or not, and else DomainError(0) when both operands are non-empty and one has a zero. -/
def Obligations.PmulFaults : Prop :=
  ∀ (s : State) (rd ra rb : PReg), Live s →
    s.cfg.has rd = true → s.cfg.has ra = true → s.cfg.has rb = true →
    s.engine.p.read ra ≠ [] → s.engine.p.read rb ≠ [] →
    (s.cfg.pmax < (s.engine.p.read ra).length + (s.engine.p.read rb).length - 1 →
      exec (.pmul rd ra rb) s = nextEngine s
        ((s.engine.afterInit s.cfg.field).recordFault 0x33 (encode (.pmul rd ra rb))
          (BitVec.ofNat 32 ((s.engine.p.read ra).length + (s.engine.p.read rb).length - 1)))) ∧
    ((s.engine.p.read ra).length + (s.engine.p.read rb).length - 1 ≤ s.cfg.pmax →
      ¬ (NoZero (s.engine.p.read ra) ∧ NoZero (s.engine.p.read rb)) →
      exec (.pmul rd ra rb) s = nextEngine s
        ((s.engine.afterInit s.cfg.field).recordFault 0x13 (encode (.pmul rd ra rb)) 0))

/-- R106, R107: PMOD gives the remainder: the dividend itself when it is the shorter, and else a
polynomial shorter than the divisor that differs from the dividend by a multiple of the divisor. -/
def Obligations.PmodGivesTheRemainder : Prop :=
  ∀ (s : State) (rd ra rb : PReg), Live s →
    s.cfg.has rd = true → s.cfg.has ra = true → s.cfg.has rb = true →
    s.engine.p.read rb ≠ [] →
    ((s.engine.p.read ra).length < (s.engine.p.read rb).length →
      exec (.pmod rd ra rb) s = nextEngine s
        { s.engine.afterInit s.cfg.field with p := s.engine.p.write rd (s.engine.p.read ra) }) ∧
    ((s.engine.p.read rb).length ≤ (s.engine.p.read ra).length → NoZero (s.engine.p.read rb) →
      ∃ q r : ByteSeq, q.length = (s.engine.p.read ra).length - (s.engine.p.read rb).length + 1 ∧
        r.length < (s.engine.p.read rb).length ∧ IsPoly r ∧
        s.engine.p.read ra =
          xorSeq (product q (s.engine.p.read rb)) (rightAlign (s.engine.p.read ra).length r) ∧
        exec (.pmod rd ra rb) s = nextEngine s
          { s.engine.afterInit s.cfg.field with p := s.engine.p.write rd r })

/-- R107: the remainder is unique: a sequence is a multiple of a divisor plus a shorter polynomial in
one way only. -/
def Obligations.RemainderIsUnique : Prop :=
  ∀ d q q' r r' : ByteSeq, d.headD 0 ≠ 0 → q ≠ [] → q'.length = q.length →
    IsPoly r → IsPoly r' → r.length < d.length → r'.length < d.length →
    xorSeq (product q d) (rightAlign (q.length + d.length - 1) r) =
      xorSeq (product q' d) (rightAlign (q.length + d.length - 1) r') → q' = q ∧ r' = r

/-- R107: PMOD raises DomainError(0) for an empty divisor, and for a divisor with a zero coefficient
when the dividend is not the shorter. -/
def Obligations.PmodFaults : Prop :=
  ∀ (s : State) (rd ra rb : PReg), Live s →
    s.cfg.has rd = true → s.cfg.has ra = true → s.cfg.has rb = true →
    s.engine.p.read rb = [] ∨
      ((s.engine.p.read rb).length ≤ (s.engine.p.read ra).length ∧ ¬ NoZero (s.engine.p.read rb)) →
    exec (.pmod rd ra rb) s = nextEngine s
      ((s.engine.afterInit s.cfg.field).recordFault 0x13 (encode (.pmod rd ra rb)) 0)

/-- R110: the word of GENP; GENP gives the product of `(x - ALPHA^i)` for `i < n`, for every `n` from 0 to 255
that fits `PMAX`, and raises LengthFault(n + 1) for one that does not. -/
def Obligations.GenpGivesTheGenerator : Prop :=
  (∀ (rd : PReg) (n : Nat), n ≤ 255 →
    decode (0x22000000 ||| (rd.num.setWidth 32 <<< 22) ||| BitVec.ofNat 32 n) = .ok (.genp rd n)) ∧
  ∀ (s : State) (rd : PReg) (n : Nat), Live s → s.cfg.has rd = true → n ≤ 255 →
    (n + 1 ≤ s.cfg.pmax →
      exec (.genp rd n) s = nextEngine s
        { s.engine.afterInit s.cfg.field with p := s.engine.p.write rd (generator n) }) ∧
    (s.cfg.pmax < n + 1 →
      exec (.genp rd n) s = nextEngine s
        ((s.engine.afterInit s.cfg.field).recordFault 0x33 (encode (.genp rd n))
          (BitVec.ofNat 32 (n + 1))))

/-- R109, R112: the generator of degree `n` has length `n + 1`, leading coefficient 1, constant term
`ALPHA^(n(n-1)/2)` and no zero coefficient for `n` up to 254; that of degree 255 is `x^255 + 1`. -/
def Obligations.GeneratorCoefficients : Prop :=
  (∀ n : Nat, n ≤ 255 → (generator n).length = n + 1 ∧ (generator n).head? = some 1 ∧
    (generator n).getLast? = some (alphaPow (n * (n - 1) / 2))) ∧
  (∀ n : Nat, n ≤ 254 → NoZero (generator n)) ∧
  generator 255 = 1 :: (List.replicate 254 0 ++ [1])

/-! ### Reed-Solomon block encoding -/

/-- R115, R122: where all lengths fit, RSENC leaves `n` EC codewords in `EB`: zeros for a block of zeros, and else the
remainder, right-aligned, of the shifted data polynomial by the generator; nothing else changes but
the tables' readiness. -/
def Obligations.RsencGivesTheRemainder : Prop :=
  ∀ (s : State) (n : Nat), Live s → n + 1 ≤ s.cfg.pmax → (shifted s.engine.sb n).length ≤ s.cfg.pmax →
    n ≤ s.cfg.emax →
    ((∀ c ∈ s.engine.sb, c = 0) → n ≤ 255 →
      exec (.rsenc n) s = nextEngine s
        { s.engine.afterInit s.cfg.field with eb := List.replicate n 0 }) ∧
    ((∃ c ∈ s.engine.sb, c ≠ 0) → n ≤ 254 →
      ∃ q r : ByteSeq, q.length = (shifted s.engine.sb n).length - n ∧ r.length ≤ n ∧ IsPoly r ∧
        shifted s.engine.sb n =
          xorSeq (product q (generator n)) (rightAlign (shifted s.engine.sb n).length r) ∧
        exec (.rsenc n) s = nextEngine s
          { s.engine.afterInit s.cfg.field with eb := rightAlign n r })

/-- R117, R122, R143: RSENC raises LengthFault(n + 1) when the generator would not fit, LengthFault(len)
when the shifted data would not, and else DomainError(0) for `n = 255` and data that is not all zero.
Before that it raises LengthFault(n) when the result would not fit `EB`: that there is such a fault is D7,
its place in the order and its argument are the model's reading (log entry 17). -/
def Obligations.RsencFaults : Prop :=
  ∀ (s : State) (n : Nat), Live s → n ≤ 255 →
    (s.cfg.pmax < n + 1 →
      exec (.rsenc n) s = nextEngine s
        ((s.engine.afterInit s.cfg.field).recordFault 0x33 (encode (.rsenc n)) (BitVec.ofNat 32 (n + 1)))) ∧
    (n + 1 ≤ s.cfg.pmax → s.cfg.pmax < (shifted s.engine.sb n).length →
      exec (.rsenc n) s = nextEngine s
        ((s.engine.afterInit s.cfg.field).recordFault 0x33 (encode (.rsenc n))
          (BitVec.ofNat 32 (shifted s.engine.sb n).length))) ∧
    (n + 1 ≤ s.cfg.pmax → (shifted s.engine.sb n).length ≤ s.cfg.pmax → s.cfg.emax < n →
      exec (.rsenc n) s = nextEngine s
        ((s.engine.afterInit s.cfg.field).recordFault 0x33 (encode (.rsenc n)) (BitVec.ofNat 32 n))) ∧
    (n + 1 ≤ s.cfg.pmax → (shifted s.engine.sb n).length ≤ s.cfg.pmax → n ≤ s.cfg.emax → n = 255 →
      (∃ c ∈ s.engine.sb, c ≠ 0) →
      exec (.rsenc n) s = nextEngine s
        ((s.engine.afterInit s.cfg.field).recordFault 0x13 (encode (.rsenc n)) 0))

/-- R124: the word of EGET; EGET gives EC codeword `k`, and raises IndexFault(k) when `k` is not below
`len(EB)`. -/
def Obligations.EgetReadsOrFaults : Prop :=
  (∀ k : Nat, k ≤ 65535 → decode (0x32000000 ||| BitVec.ofNat 32 k) = .ok (.eget k)) ∧
  ∀ (s : State) (k : Nat), Live s →
    (∀ h : k < s.engine.eb.length,
      exec (.eget k) s = nextEngine s { s.engine with res := (s.engine.eb[k]).setWidth 32 }) ∧
    (s.engine.eb.length ≤ k →
      exec (.eget k) s = nextEngine s
        (s.engine.recordFault (s.engine.status ||| 0x42) (encode (.eget k)) (BitVec.ofNat 32 k)))

/-- R118: whenever `rs_ec` does not fault it gives `n` bytes, and the data followed by them is a
multiple of the generator: a Reed-Solomon codeword. R117: it faults, with DomainError(0), exactly when
the generator has a zero coefficient and the data is not all zero; for `n` up to 254 it never does. -/
def Obligations.EcCodewordsCompleteACodeword : Prop :=
  ∀ (t : Tables) (data : ByteSeq) (n : Nat), t.Ready .standard →
    (n ≤ 254 → ∃ ec, rsEc t data n = .ok ec) ∧
    (n ≤ 255 → ((∃ r, rsEc t data n = .error r) ↔ (∃ c ∈ generator n, c = 0) ∧ ∃ c ∈ data, c ≠ 0) ∧
      ∀ r, rsEc t data n = .error r → r = ⟨.domainError, 0⟩) ∧
    (n ≤ 255 → (∃ c ∈ generator n, c = 0) → n = 255) ∧
    (n ≤ 255 → ∀ ec, rsEc t data n = .ok ec →
      ec.length = n ∧ polyMod t (construct (data ++ ec) 0) (generator n) = .ok [] ∧
      (data ≠ [] → ∃ q : ByteSeq, q.length = data.length ∧ product q (generator n) = data ++ ec))

/-- R119: no EC codewords for `n = 0`; zeros for a block of zeros, `n = 255` included; and leading
zeros of the data do not change the result. -/
def Obligations.EcOfSpecialBlocks : Prop :=
  ∀ t : Tables, t.Ready .standard →
    (∀ data, rsEc t data 0 = .ok []) ∧
    (∀ m n, n ≤ 255 → rsEc t (List.replicate m 0) n = .ok (List.replicate n 0)) ∧
    (∀ m data n, n ≤ 255 → rsEc t (List.replicate m 0 ++ data) n = rsEc t data n)

/-- R125: RSENC is equivalent to GENP, PNEW and PMOD: they leave the stripped remainder in `P2`, which
right-aligned is what RSENC leaves in `EB`, and the two ways differ in `P0` to `P2` and `EB` only. -/
def Obligations.RsencFromThePrimitives : Prop :=
  ∀ (s : State) (n : Nat), Live s → 3 ≤ s.cfg.npoly → n ≤ 254 → n + 1 ≤ s.cfg.pmax → n ≤ s.cfg.emax →
    (shifted s.engine.sb n).length ≤ s.cfg.pmax →
    ∃ s1 s2 s3 t : State, exec (.genp .p0 n) s = .next s1 ∧ exec (.pnew .p1 n) s1 = .next s2 ∧
      exec (.pmod .p2 .p1 .p0) s2 = .next s3 ∧ exec (.rsenc n) s = .next t ∧
      s3.engine.faulted = false ∧ t.engine.faulted = false ∧
      (s3.engine.p.read .p2).length ≤ n ∧ t.engine.eb = rightAlign n (s3.engine.p.read .p2) ∧
      t.engine.p = s.engine.p ∧ s3.engine.eb = s.engine.eb ∧
      s3.engine.p.read .p3 = s.engine.p.read .p3 ∧
      s3 = { t with engine := { t.engine with p := s3.engine.p, eb := s3.engine.eb } } ∧
      t.engine.sb = s.engine.sb ∧ t.engine.res = s.engine.res ∧
      t.engine.finfo = s.engine.finfo ∧ t.engine.farg = s.engine.farg

/-! ### The host's block procedure -/

/-- R129: when the host issues the actions for one block, its reads return the EC codewords of the
block in order, `SB` holds the data, and the polynomial registers are untouched. That the actions and the
values returned are lists in the state, and that each EGET is followed by a read of `RES`, are the
model's choice (log entries 1, 2 and 13). -/
def Obligations.BlockProcedureReturnsTheEcCodewords : Prop :=
  ∀ (s : State) (data : ByteSeq) (n : Nat) (rest : List HostAction), Live s → n ≤ 254 → n ≤ s.cfg.emax →
    data.length ≤ s.cfg.smax → n + 1 ≤ s.cfg.pmax → (shifted data n).length ≤ s.cfg.pmax →
    s.pending = blockActions s.cfg data n ++ rest →
    ∃ (ec : ByteSeq) (t : State),
      rsEc (s.engine.tables.fill s.cfg.field) data n = .ok ec ∧
      core.run (blockActions s.cfg data n).length s = .next t ∧
      t.pending = rest ∧ t.returned = s.returned ++ ec.map (·.setWidth 32) ∧
      t.engine.sb = data ∧ t.engine.eb = ec ∧ t.engine.p = s.engine.p ∧ t.engine.faulted = false

/-- R64: the pseudo-instruction PLOAD puts the data in `SB` and the document's Polynomial constructor
applied to it, with the shift, in the register; nothing else changes. That the host's actions are a list
in the state is the model's choice (log entry 1). -/
def Obligations.PloadConstructsItsOperand : Prop :=
  ∀ (s : State) (rd : PReg) (k : Nat) (data : ByteSeq) (rest : List HostAction), Live s →
    s.cfg.has rd = true → k ≤ 65535 →
    data.length ≤ s.cfg.smax → (shifted data k).length ≤ s.cfg.pmax →
    s.pending = (pload rd k (data.map (·.toNat))).map (issue s.cfg) ++ rest →
    core.run (pload rd k (data.map (·.toNat))).length s = .next { s with
      pending := rest
      engine := { s.engine with sb := data, p := s.engine.p.write rd (shifted data k) } }

/-- R130: the interleave emits index 0 of every data block in order, then index 1 and so on, skipping
blocks shorter than the index, and then the EC codewords in the same way: it says at which place every
codeword stands, and that none is lost or repeated; with one block it is the data followed by the EC
codewords. R128: the split cuts the buffer into consecutive runs, in list order, that join up to it
again. That the runs are consecutive is from general knowledge by R128 itself (G5), and that the host's
procedure is a function beside the engine is the model's choice (log entry 13). -/
def Obligations.InterleaveKeepsEveryCodeword : Prop :=
  (∀ (blocks : List RsBlock) (buf : ByteSeq), buf.length = (blocks.map (·.dataCodewords)).sum →
    (splitBlocks blocks buf).flatten = buf ∧
    (splitBlocks blocks buf).map List.length = blocks.map (·.dataCodewords)) ∧
  (∀ data ec : List ByteSeq, (interleave data ec).Perm (data.flatten ++ ec.flatten) ∧
    (∀ (b i : Nat) (hb : b < data.length) (hi : i < data[b].length),
      (interleave data ec)[slotOf data b i]? = some data[b][i]) ∧
    ∀ (b i : Nat) (hb : b < ec.length) (hi : i < ec[b].length),
      (interleave data ec)[data.flatten.length + slotOf ec b i]? = some ec[b][i]) ∧
  (∀ d e : ByteSeq, interleave [d] [e] = d ++ e)

/-- R127 to R130: a whole encode. When the host issues the actions for every block of a version and
level, the codeword stream it forms from the values its reads returned is the interleave of the data
blocks and the EC codewords of each, and has the sum of `totalCodewords` bytes. That the table is an
argument and the runs consecutive is the model's choice or from general knowledge (log entries 1, 2, 13
and G5). -/
def Obligations.WholeEncodeGivesTheCodewordStream : Prop :=
  ∀ (s : State) (table : RsBlockTable) (v : Version) (level : EcLevel) (buf : ByteSeq)
    (rest : List HostAction), Live s → table.wf → buf.length = totalDataCodewords (table v level) →
    (∀ b ∈ table v level, b.ecLen ≤ 254 ∧ b.ecLen ≤ s.cfg.emax ∧ b.ecLen + 1 ≤ s.cfg.pmax ∧
      b.dataCodewords ≤ s.cfg.smax ∧ b.dataCodewords + b.ecLen ≤ s.cfg.pmax) →
    s.pending = encodeActions s.cfg table v level buf ++ rest →
    ∃ (ecs : List ByteSeq) (ws : List Word) (t : State),
      List.zipWith (fun b d => rsEc (s.engine.tables.fill s.cfg.field) d b.ecLen) (table v level)
        (splitBlocks (table v level) buf) = ecs.map .ok ∧
      core.run (encodeActions s.cfg table v level buf).length s = .next t ∧
      t.pending = rest ∧ t.returned = s.returned ++ ws ∧ t.engine.faulted = false ∧
      encodedStream table v level buf ws = interleave (splitBlocks (table v level) buf) ecs ∧
      (encodedStream table v level buf ws).length = ((table v level).map (·.totalCodewords)).sum
end

