-- ==== Sys2Proof/Laws/State.lean ====
section
/-! SUPPORT. One lemma for each field of the engine under each update of it, and the registers under a
write: what later proofs cite instead of unfolding a record update. -/

namespace Sys2Proof.Machine

variable (e : Engine)

@[simp] theorem Engine.setRes_tables (w : Word) : (e.setRes w).tables = e.tables := rfl
@[simp] theorem Engine.setRes_p (w : Word) : (e.setRes w).p = e.p := rfl
@[simp] theorem Engine.setRes_sb (w : Word) : (e.setRes w).sb = e.sb := rfl
@[simp] theorem Engine.setRes_eb (w : Word) : (e.setRes w).eb = e.eb := rfl
@[simp] theorem Engine.setRes_res (w : Word) : (e.setRes w).res = w := rfl
@[simp] theorem Engine.setRes_status (w : Word) : (e.setRes w).status = e.status := rfl
@[simp] theorem Engine.setRes_finfo (w : Word) : (e.setRes w).finfo = e.finfo := rfl
@[simp] theorem Engine.setRes_farg (w : Word) : (e.setRes w).farg = e.farg := rfl

@[simp] theorem Engine.setPoly_tables (rd : PReg) (v : ByteSeq) : (e.setPoly rd v).tables = e.tables := rfl
@[simp] theorem Engine.setPoly_p (rd : PReg) (v : ByteSeq) : (e.setPoly rd v).p = e.p.write rd v := rfl
@[simp] theorem Engine.setPoly_sb (rd : PReg) (v : ByteSeq) : (e.setPoly rd v).sb = e.sb := rfl
@[simp] theorem Engine.setPoly_eb (rd : PReg) (v : ByteSeq) : (e.setPoly rd v).eb = e.eb := rfl
@[simp] theorem Engine.setPoly_res (rd : PReg) (v : ByteSeq) : (e.setPoly rd v).res = e.res := rfl
@[simp] theorem Engine.setPoly_status (rd : PReg) (v : ByteSeq) : (e.setPoly rd v).status = e.status := rfl
@[simp] theorem Engine.setPoly_finfo (rd : PReg) (v : ByteSeq) : (e.setPoly rd v).finfo = e.finfo := rfl
@[simp] theorem Engine.setPoly_farg (rd : PReg) (v : ByteSeq) : (e.setPoly rd v).farg = e.farg := rfl

@[simp] theorem Engine.setSb_tables (v : ByteSeq) : (e.setSb v).tables = e.tables := rfl
@[simp] theorem Engine.setSb_p (v : ByteSeq) : (e.setSb v).p = e.p := rfl
@[simp] theorem Engine.setSb_sb (v : ByteSeq) : (e.setSb v).sb = v := rfl
@[simp] theorem Engine.setSb_eb (v : ByteSeq) : (e.setSb v).eb = e.eb := rfl
@[simp] theorem Engine.setSb_res (v : ByteSeq) : (e.setSb v).res = e.res := rfl
@[simp] theorem Engine.setSb_status (v : ByteSeq) : (e.setSb v).status = e.status := rfl
@[simp] theorem Engine.setSb_finfo (v : ByteSeq) : (e.setSb v).finfo = e.finfo := rfl
@[simp] theorem Engine.setSb_farg (v : ByteSeq) : (e.setSb v).farg = e.farg := rfl

@[simp] theorem Engine.setEb_tables (v : ByteSeq) : (e.setEb v).tables = e.tables := rfl
@[simp] theorem Engine.setEb_p (v : ByteSeq) : (e.setEb v).p = e.p := rfl
@[simp] theorem Engine.setEb_sb (v : ByteSeq) : (e.setEb v).sb = e.sb := rfl
@[simp] theorem Engine.setEb_eb (v : ByteSeq) : (e.setEb v).eb = v := rfl
@[simp] theorem Engine.setEb_res (v : ByteSeq) : (e.setEb v).res = e.res := rfl
@[simp] theorem Engine.setEb_status (v : ByteSeq) : (e.setEb v).status = e.status := rfl
@[simp] theorem Engine.setEb_finfo (v : ByteSeq) : (e.setEb v).finfo = e.finfo := rfl
@[simp] theorem Engine.setEb_farg (v : ByteSeq) : (e.setEb v).farg = e.farg := rfl

@[simp] theorem Engine.enterFault_tables (w : Word) (r : Raise) : (e.enterFault w r).tables = e.tables := rfl
@[simp] theorem Engine.enterFault_p (w : Word) (r : Raise) : (e.enterFault w r).p = e.p := rfl
@[simp] theorem Engine.enterFault_sb (w : Word) (r : Raise) : (e.enterFault w r).sb = e.sb := rfl
@[simp] theorem Engine.enterFault_eb (w : Word) (r : Raise) : (e.enterFault w r).eb = e.eb := rfl
@[simp] theorem Engine.enterFault_res (w : Word) (r : Raise) : (e.enterFault w r).res = e.res := rfl
@[simp] theorem Engine.enterFault_status (w : Word) (r : Raise) : (e.enterFault w r).status = statusFault e.status r.cause := rfl
@[simp] theorem Engine.enterFault_finfo (w : Word) (r : Raise) : (e.enterFault w r).finfo = w := rfl
@[simp] theorem Engine.enterFault_farg (w : Word) (r : Raise) : (e.enterFault w r).farg = r.info := rfl

@[simp] theorem Engine.afterInit_tables (fp : FieldParams) : (e.afterInit fp).tables = e.tables.fill fp := rfl
@[simp] theorem Engine.afterInit_p (fp : FieldParams) : (e.afterInit fp).p = e.p := rfl
@[simp] theorem Engine.afterInit_sb (fp : FieldParams) : (e.afterInit fp).sb = e.sb := rfl
@[simp] theorem Engine.afterInit_eb (fp : FieldParams) : (e.afterInit fp).eb = e.eb := rfl
@[simp] theorem Engine.afterInit_res (fp : FieldParams) : (e.afterInit fp).res = e.res := rfl
@[simp] theorem Engine.afterInit_status (fp : FieldParams) : (e.afterInit fp).status = e.status ||| 0x1 := rfl
@[simp] theorem Engine.afterInit_finfo (fp : FieldParams) : (e.afterInit fp).finfo = e.finfo := rfl
@[simp] theorem Engine.afterInit_farg (fp : FieldParams) : (e.afterInit fp).farg = e.farg := rfl

@[simp] theorem Engine.recordFault_tables (st w a : Word) : (e.recordFault st w a).tables = e.tables := rfl
@[simp] theorem Engine.recordFault_p (st w a : Word) : (e.recordFault st w a).p = e.p := rfl
@[simp] theorem Engine.recordFault_sb (st w a : Word) : (e.recordFault st w a).sb = e.sb := rfl
@[simp] theorem Engine.recordFault_eb (st w a : Word) : (e.recordFault st w a).eb = e.eb := rfl
@[simp] theorem Engine.recordFault_res (st w a : Word) : (e.recordFault st w a).res = e.res := rfl
@[simp] theorem Engine.recordFault_status (st w a : Word) : (e.recordFault st w a).status = st := rfl
@[simp] theorem Engine.recordFault_finfo (st w a : Word) : (e.recordFault st w a).finfo = w := rfl
@[simp] theorem Engine.recordFault_farg (st w a : Word) : (e.recordFault st w a).farg = a := rfl

/-- R28: a register reads as it was last written, the others are untouched. -/
@[simp] theorem PolyRegs.read_write_same (p : PolyRegs) (r : PReg) (v : ByteSeq) : (p.write r v).read r = v := by
  cases r <;> rfl

theorem PolyRegs.read_write_other (p : PolyRegs) {rd r : PReg} (v : ByteSeq) (h : r ≠ rd) :
    (p.write rd v).read r = p.read r := by
  cases rd <;> cases r <;> first | rfl | exact absurd rfl h

/-- Registers are what their four reads say. -/
theorem PolyRegs.ext_read {p q : PolyRegs} (h : ∀ r, p.read r = q.read r) : p = q := by
  cases p; cases q
  have h0 := h .p0; have h1 := h .p1; have h2 := h .p2; have h3 := h .p3
  simp only [PolyRegs.read] at h0 h1 h2 h3
  subst h0 h1 h2 h3
  rfl

@[simp] theorem Engine.reset_read (r : PReg) : Engine.reset.p.read r = [] := by cases r <;> rfl

end Sys2Proof.Machine
end

