-- ==== Sys2Proof/Laws/Seq.lean ====
section
/-! SUPPORT. Sequences and operands: `strip`, `construct`, elements, length tests, right alignment. -/

namespace Sys2Proof.Machine

@[simp] theorem strip_nil : strip [] = [] := rfl

@[simp] theorem strip_zero_cons (s : ByteSeq) : strip (0#8 :: s) = strip s := by simp [strip]

theorem strip_cons_of_ne {c : Byte} (h : c ≠ 0) (s : ByteSeq) : strip (c :: s) = c :: s := by
  rw [strip, if_neg h]

theorem strip_eq_dropWhile (s : ByteSeq) : strip s = s.dropWhile (· == 0) := by
  induction s with
  | nil => rfl
  | cons c s ih => by_cases h : c = 0 <;> simp [strip, List.dropWhile_cons, h, ih]

/-- R85: `strip(strip(s)) = strip(s)`. -/
@[simp] theorem strip_strip (s : ByteSeq) : strip (strip s) = strip s := by
  induction s with
  | nil => rfl
  | cons c s ih =>
    by_cases h : c = 0#8
    · subst h; simpa using ih
    · simp [strip_cons_of_ne h]

theorem strip_length_le (s : ByteSeq) : (strip s).length ≤ s.length := by
  induction s with
  | nil => exact Nat.le_refl 0
  | cons c s ih =>
    by_cases h : c = 0#8
    · subst h; simpa using Nat.le_succ_of_le ih
    · simp [strip_cons_of_ne h]

/-- R13: a non-empty polynomial begins with a non-zero coefficient, and that is all it takes. -/
theorem isPoly_cons {c : Byte} {s : ByteSeq} : IsPoly (c :: s) ↔ c ≠ 0 := by
  constructor
  · rintro h rfl
    have h' : strip s = 0#8 :: s := (strip_zero_cons s).symm.trans h
    have := congrArg List.length h'
    have hle := strip_length_le s
    simp only [List.length_cons] at this
    omega
  · exact fun h => strip_cons_of_ne h s

@[simp] theorem isPoly_nil : IsPoly [] := rfl

@[simp] theorem isPoly_strip (s : ByteSeq) : IsPoly (strip s) := strip_strip s

@[simp] theorem isPoly_construct (s : ByteSeq) (k : Nat) : IsPoly (construct s k) := strip_strip _

theorem strip_of_all_zero {s : ByteSeq} (h : ∀ c ∈ s, c = 0) : strip s = [] := by
  induction s with
  | nil => rfl
  | cons c s ih =>
    obtain rfl : c = 0#8 := h c List.mem_cons_self
    rw [strip_zero_cons]
    exact ih fun x hx => h x (List.mem_cons_of_mem _ hx)

@[simp] theorem zeros_length (k : Nat) : (zeros k).length = k := List.length_replicate

theorem padLeft_eq_rightAlign (n : Nat) (r : ByteSeq) : padLeft n r = rightAlign n r := rfl

theorem rightAlign_length {n : Nat} {r : ByteSeq} (h : r.length ≤ n) : (rightAlign n r).length = n := by
  simp [rightAlign, Nat.sub_add_cancel h]

theorem element_of_lt {s : ByteSeq} {k : Nat} (h : k < s.length) : element s k = .ok s[k] := by
  simp [element, h]

theorem element_of_ge {s : ByteSeq} {k : Nat} (h : s.length ≤ k) : element s k = .error (Raise.index k) := by
  simp [element, List.getElem?_eq_none h]

theorem checkLength_of_le {len cap : Nat} (h : len ≤ cap) : checkLength len cap = .ok () := by
  simp [checkLength, Nat.not_lt.mpr h]

theorem checkLength_of_gt {len cap : Nat} (h : cap < len) :
    checkLength len cap = .error (Raise.length len) := by
  simp [checkLength, h]

/-- A monadic step on a success. -/
@[simp] theorem ok_bind {ε α β : Type} (a : α) (f : α → Except ε β) : (Except.ok a >>= f) = f a := rfl

/-- A monadic step on an error. -/
@[simp] theorem error_bind {ε α β : Type} (r : ε) (f : α → Except ε β) :
    ((Except.error r : Except ε α) >>= f) = .error r := rfl

/-- A computation that succeeds succeeded at its first step. -/
theorem bind_eq_ok {ε α β : Type} {x : Except ε α} {f : α → Except ε β} {b : β} (h : (x >>= f) = .ok b) :
    ∃ a, x = .ok a ∧ f a = .ok b := by
  cases x with
  | ok a => exact ⟨a, rfl, h⟩
  | error r => exact nomatch h

end Sys2Proof.Machine
end

