-- ==== Sys2Proof/Laws/Arith.lean ====
section
/-! SUPPORT. Lengths and shapes of the results of polynomial arithmetic (R101, R105, R109), whatever the
tables hold. -/

namespace Sys2Proof.Machine

theorem xorFront_length {row out : ByteSeq} (h : row.length ≤ out.length) :
    (xorFront row out).length = out.length := by
  induction row generalizing out with
  | nil => rfl
  | cons r row ih =>
    cases out with
    | nil => simp at h
    | cons o out => simp [xorFront, ih (Nat.le_of_succ_le_succ h)]

theorem mulRow_length {t : Tables} {a : Byte} {b row : ByteSeq} (h : mulRow t a b = .ok row) :
    row.length = b.length := by
  induction b generalizing row with
  | nil => cases h; rfl
  | cons c b ih =>
    obtain ⟨x, _, h⟩ := bind_eq_ok h
    obtain ⟨xs, hxs, h⟩ := bind_eq_ok h
    cases h
    simp [ih hxs]

/-- R101: the length of `out` is `len(a) + len(b) - 1`. -/
theorem mulRows_length {t : Tables} {a b out : ByteSeq} (hb : 0 < b.length) (h : mulRows t a b = .ok out) :
    out.length = a.length + b.length - 1 := by
  induction a generalizing out with
  | nil => cases h; simp
  | cons x a ih =>
    obtain ⟨row, hrow, h⟩ := bind_eq_ok h
    obtain ⟨rest, hrest, h⟩ := bind_eq_ok h
    cases h
    have h1 := ih hrest
    have h2 := mulRow_length hrow
    rw [xorFront_length (by simp only [List.length_cons]; omega)]
    simp only [List.length_cons]
    omega

theorem polyMul_isPoly {t : Tables} {a b p : ByteSeq} (h : polyMul t a b = .ok p) : IsPoly p := by
  unfold polyMul at h
  split at h
  · cases h; rfl
  · obtain ⟨out, _, h⟩ := bind_eq_ok h
    cases h
    exact isPoly_strip out

theorem polyMul_length_le {t : Tables} {a b p : ByteSeq} (h : polyMul t a b = .ok p) :
    p.length ≤ a.length + b.length - 1 := by
  unfold polyMul at h
  split at h
  · cases h; exact Nat.zero_le _
  · rename_i hab
    obtain ⟨out, hout, h⟩ := bind_eq_ok h
    cases h
    rw [← mulRows_length (by omega) hout]
    exact strip_length_le out

theorem scaleBy_length {t : Tables} {ratio : Int} {d row : ByteSeq} (h : scaleBy t ratio d = .ok row) :
    row.length = d.length := by
  induction d generalizing row with
  | nil => cases h; rfl
  | cons c d ih =>
    obtain ⟨l, _, h⟩ := bind_eq_ok h
    obtain ⟨xs, hxs, h⟩ := bind_eq_ok h
    cases h
    simp [ih hxs]

theorem modPass_length {t : Tables} {a d num : ByteSeq} (hd : d.length ≤ a.length)
    (h : modPass t a d = .ok num) : num.length = a.length := by
  obtain ⟨la, _, h⟩ := bind_eq_ok h
  obtain ⟨ld, _, h⟩ := bind_eq_ok h
  obtain ⟨row, hrow, h⟩ := bind_eq_ok h
  cases h
  exact xorFront_length (by rw [scaleBy_length hrow]; exact hd)

/-- The loop of R105 keeps a polynomial a polynomial and never lengthens it. -/
theorem modLoop_shape {t : Tables} {d a r : ByteSeq} {k : Nat} (ha : IsPoly a)
    (h : modLoop t d k a = .ok r) : IsPoly r ∧ r.length ≤ a.length := by
  induction k generalizing a with
  | zero => cases h; exact ⟨ha, Nat.le_refl _⟩
  | succ k ih =>
    unfold modLoop at h
    split at h
    · cases h; exact ⟨ha, Nat.le_refl _⟩
    · rename_i hlen
      obtain ⟨num, hnum, h⟩ := bind_eq_ok h
      obtain ⟨hp, hl⟩ := ih (isPoly_strip num) h
      refine ⟨hp, hl.trans ((strip_length_le num).trans (Nat.le_of_eq ?_))⟩
      exact modPass_length (by omega) hnum

theorem polyMod_shape {t : Tables} {d a r : ByteSeq} (ha : IsPoly a) (h : polyMod t a d = .ok r) :
    IsPoly r ∧ r.length ≤ a.length := by
  unfold polyMod at h
  split at h
  · cases h
  · exact modLoop_shape ha h

/-- R107: a dividend shorter than a non-empty divisor is returned as it is. -/
theorem polyMod_of_short {t : Tables} {a d : ByteSeq} (h : a.length < d.length) :
    polyMod t a d = .ok a := by
  unfold polyMod
  rw [if_neg (by omega)]
  cases a with
  | nil => rfl
  | cons x a => rw [List.length_cons, modLoop, if_pos h]

theorem genpoly_shape {t : Tables} {n : Nat} {g : ByteSeq} (h : genpoly t n = .ok g) :
    IsPoly g ∧ g.length ≤ n + 1 := by
  induction n generalizing g with
  | zero => cases h; exact ⟨isPoly_cons.mpr (by decide), Nat.le_refl 1⟩
  | succ n ih =>
    obtain ⟨a, ha, h⟩ := bind_eq_ok h
    refine ⟨polyMul_isPoly h, (polyMul_length_le h).trans ?_⟩
    have := (ih ha).2
    simp only [List.length_cons, List.length_nil]
    omega

end Sys2Proof.Machine
end

