-- ==== Sys2Proof/Laws/Decode.lean ====
section
/-! SUPPORT. The fields of a command word (R56): cutting and joining are inverse, and the opcode map
(R58) is one to one. -/

namespace Sys2Proof

/-- Joining the fields of a word gives the word. -/
@[simp] theorem joinFields_splitWord (w : Word) : joinFields (splitWord w) = w := by
  apply BitVec.eq_of_getLsbD_eq
  intro i hi
  simp only [joinFields, splitWord, BitVec.getLsbD_append, BitVec.getLsbD_extractLsb']
  split
  · simp [*]
  split
  · simp only [show i - 16 < 2 by omega, decide_true, Bool.true_and]; congr 1; omega
  split
  · simp only [show i - 16 - 2 < 2 by omega, decide_true, Bool.true_and]; congr 1; omega
  split
  · simp only [show i - 16 - 2 - 2 < 2 by omega, decide_true, Bool.true_and]; congr 1; omega
  split
  · simp only [show i - 16 - 2 - 2 - 2 < 2 by omega, decide_true, Bool.true_and]; congr 1; omega
  · simp only [show i - 16 - 2 - 2 - 2 - 2 < 8 by omega, decide_true, Bool.true_and]; congr 1; omega

/-- Cutting a word that was joined gives the fields. -/
@[simp] theorem splitWord_joinFields (f : Fields) : splitWord (joinFields f) = f := by
  obtain ⟨op, rd, ra, rb, z, imm⟩ := f
  simp only [splitWord, joinFields, Fields.mk.injEq]
  refine ⟨?_, ?_, ?_, ?_, ?_, ?_⟩ <;>
  · apply BitVec.eq_of_getLsbD_eq
    intro i hi
    simp only [BitVec.getLsbD_append, BitVec.getLsbD_extractLsb', hi, decide_true, Bool.true_and]
    repeat rw [if_neg (by omega)]
    first
    | (rw [if_pos (by omega)]; congr 1; omega)
    | (congr 1; omega)

/-- R58: the opcodes differ, so an opcode finds its own row. -/
@[simp] theorem Mnemonic.ofOpcode_op (m : Mnemonic) : Mnemonic.ofOpcode m.format.op = some m := by
  cases m <;> decide

/-- The row that an opcode finds has that opcode. -/
theorem Mnemonic.op_of_ofOpcode {op : BitVec 8} {m : Mnemonic} (h : Mnemonic.ofOpcode op = some m) :
    m.format.op = op := by
  simpa using List.find?_some h

@[simp] theorem PReg.ofNum_num (r : PReg) : PReg.ofNum r.num = r := by cases r <;> rfl

@[simp] theorem PReg.num_ofNum (n : BitVec 2) : (PReg.ofNum n).num = n := by
  revert n; decide

@[simp] theorem Instr.fields_op (i : Instr) : i.fields.op = i.mnemonic.format.op := by cases i <;> rfl

/-- What the decoder answers on a word of known fields: the row, its objection, the command. -/
theorem decode_joinFields (f : Fields) {m : Mnemonic} (h : f.op = m.format.op) :
    decode (joinFields f) =
      match m.format.objection f with
      | some r => .error r
      | none => .ok (buildInstr m f) := by
  unfold decode
  rw [splitWord_joinFields]
  cases hm : Mnemonic.ofOpcode f.op with
  | none => rw [h, Mnemonic.ofOpcode_op] at hm; cases hm
  | some n => rw [h, Mnemonic.ofOpcode_op] at hm; cases hm; rfl

end Sys2Proof
end

