-- ==== Sys2Proof/Laws/Flags.lean ====
section
/-! SUPPORT. What the two updates of `STATUS` do to its fields (R24, R32, R140), for any status word. -/

namespace Sys2Proof.Machine

theorem statusReady_bit0 (st : Word) : (statusReady st).getLsbD 0 = true := by
  simp [statusReady]

theorem statusReady_of_bit0 {st : Word} (h : st.getLsbD 0 = true) : statusReady st = st := by
  apply BitVec.eq_of_getLsbD_eq
  intro i _
  simp only [statusReady, BitVec.getLsbD_or]
  by_cases hi : i = 0
  · simp [hi, h]
  · simp [hi]

theorem statusReady_bit1 (st : Word) : (statusReady st).getLsbD 1 = st.getLsbD 1 := by
  simp [statusReady]

theorem statusFault_bit0 (st : Word) (c : Cause) : (statusFault st c).getLsbD 0 = st.getLsbD 0 := by
  cases c <;> simp [statusFault, Cause.code]

theorem statusFault_bit1 (st : Word) (c : Cause) : (statusFault st c).getLsbD 1 = true := by
  cases c <;> simp [statusFault, Cause.code]

@[simp] theorem Engine.enterFault_faulted (e : Engine) (w : Word) (r : Raise) :
    (e.enterFault w r).faulted = true := statusFault_bit1 _ _

@[simp] theorem Engine.enterFault_trdy (e : Engine) (w : Word) (r : Raise) :
    (e.enterFault w r).trdy = e.trdy := statusFault_bit0 _ _

/-- R140: the cause field holds the fault's code. -/
@[simp] theorem Engine.enterFault_fcause (e : Engine) (w : Word) (r : Raise) :
    (e.enterFault w r).fcause = r.cause.code := by
  obtain ⟨c, i⟩ := r
  cases c <;>
  · apply BitVec.eq_of_getLsbD_eq
    intro j hj
    have : j = 0 ∨ j = 1 ∨ j = 2 ∨ j = 3 := by omega
    rcases this with rfl | rfl | rfl | rfl <;>
      simp [Engine.fcause, Engine.enterFault, statusFault, Cause.code]

@[simp] theorem Engine.setRes_faulted (e : Engine) (w : Word) : (e.setRes w).faulted = e.faulted := rfl
@[simp] theorem Engine.setPoly_faulted (e : Engine) (rd : PReg) (v : ByteSeq) :
    (e.setPoly rd v).faulted = e.faulted := rfl
@[simp] theorem Engine.setSb_faulted (e : Engine) (v : ByteSeq) : (e.setSb v).faulted = e.faulted := rfl
@[simp] theorem Engine.setEb_faulted (e : Engine) (v : ByteSeq) : (e.setEb v).faulted = e.faulted := rfl
@[simp] theorem Engine.setRes_trdy (e : Engine) (w : Word) : (e.setRes w).trdy = e.trdy := rfl
@[simp] theorem Engine.setPoly_trdy (e : Engine) (rd : PReg) (v : ByteSeq) :
    (e.setPoly rd v).trdy = e.trdy := rfl
@[simp] theorem Engine.setSb_trdy (e : Engine) (v : ByteSeq) : (e.setSb v).trdy = e.trdy := rfl
@[simp] theorem Engine.setEb_trdy (e : Engine) (v : ByteSeq) : (e.setEb v).trdy = e.trdy := rfl

/-- R32: outside the fault state a legal `STATUS` is `0x00` or `0x01`. -/
theorem status_of_live {s : State} (h : Live s) : s.engine.status = 0 ∨ s.engine.status = 1 := by
  obtain ⟨hi, hf⟩ := h
  have hs := hi.status
  simp only [legalStatus, List.mem_cons, List.not_mem_nil, or_false] at hs
  rcases hs with hs | hs | hs | hs | hs | hs | hs | hs | hs | hs
  · exact .inl hs
  · exact .inr hs
  all_goals exact absurd hf (by simp [Engine.faulted, hs])

end Sys2Proof.Machine
end

