-- ==== Sys2Proof/Laws/Ops.lean ====
section
/-! SUPPORT. What the shared operations do, said once: table initialisation, the prologue, a command as
a whole (R60), and the shape of every answer of `exec`. -/

namespace Sys2Proof.Machine

theorem Engine.tablesInit_of_ready {fp : FieldParams} {e : Engine} (h : e.trdy = true) : e.tablesInit fp = e := by
  simp [Engine.tablesInit, h]

theorem Engine.tablesInit_of_not_ready {fp : FieldParams} {e : Engine} (h : e.trdy = false) :
    e.tablesInit fp = e.afterInit fp := by
  simp [Engine.tablesInit, h, Engine.afterInit, statusReady]

/-- R24: after `tables_init()` the tables are ready. -/
@[simp] theorem Engine.tablesInit_trdy (fp : FieldParams) (e : Engine) : (e.tablesInit fp).trdy = true := by
  cases h : e.trdy
  · rw [Engine.tablesInit_of_not_ready h]
    exact statusReady_bit0 e.status
  · rw [Engine.tablesInit_of_ready h, h]

/-- Under the invariant `tables_init()` is `afterInit`, whether the tables were ready or not. -/
theorem Engine.tablesInit_of_inv {s : State} (h : Inv s) :
    s.engine.tablesInit s.cfg.field = s.engine.afterInit s.cfg.field := by
  cases ht : s.engine.trdy
  · exact Engine.tablesInit_of_not_ready ht
  · rw [Engine.tablesInit_of_ready ht, Engine.afterInit, h.ready ht]
    have : s.engine.status ||| 0x1 = s.engine.status := statusReady_of_bit0 ht
    rw [this]

@[simp] theorem Engine.prologue_faulted (fp : FieldParams) (i : Instr) (e : Engine) :
    (e.prologue fp i).faulted = e.faulted := by
  unfold Engine.prologue Engine.tablesInit
  split
  · split
    · rfl
    · exact statusReady_bit1 e.status
  · rfl

theorem Engine.prologue_of_uses {fp : FieldParams} {i : Instr} {e : Engine} (h : usesTables i = true) :
    e.prologue fp i = e.tablesInit fp := by simp [Engine.prologue, h]

theorem Engine.prologue_of_not_uses {fp : FieldParams} {i : Instr} {e : Engine} (h : usesTables i = false) :
    e.prologue fp i = e := by simp [Engine.prologue, h]

/-- R60 step 4 touches nothing but the tables and `STATUS`. -/
theorem Engine.prologue_frame (fp : FieldParams) (i : Instr) (e : Engine) :
    (e.prologue fp i).p = e.p ∧ (e.prologue fp i).sb = e.sb ∧ (e.prologue fp i).eb = e.eb ∧
    (e.prologue fp i).res = e.res ∧ (e.prologue fp i).finfo = e.finfo ∧
    (e.prologue fp i).farg = e.farg := by
  unfold Engine.prologue Engine.tablesInit
  split <;> [split; skip] <;> exact ⟨rfl, rfl, rfl, rfl, rfl, rfl⟩

/-- A command in the fault state changes nothing (R141). -/
theorem command_of_faulted {i : Instr} {rule : Config → Engine → Except Raise Engine} {s : State}
    (h : s.engine.faulted = true) : command i rule s = .next s := by
  simp [command, Engine.command, h]

/-- A command that names a register the engine lacks is an illegal one (log entry 24). -/
theorem command_of_absent {i : Instr} {rule : Config → Engine → Except Raise Engine} {s : State}
    (h : s.engine.faulted = false) (ha : s.cfg.admits i = false) :
    command i rule s = nextEngine s (s.engine.enterFault (encode i) Raise.illegal) := by
  simp [command, Engine.command, h, ha, nextEngine]

/-- A command whose rule completes leaves what the rule names (R60 step 5). -/
theorem command_of_ok {i : Instr} {rule : Config → Engine → Except Raise Engine} {s : State} {e : Engine}
    (h : s.engine.faulted = false) (ha : s.cfg.admits i = true)
    (hr : rule s.cfg (s.engine.prologue s.cfg.field i) = .ok e) :
    command i rule s = nextEngine s e := by
  simp [command, Engine.command, h, ha, hr, Engine.finish, nextEngine]

/-- A command whose rule raises a fault leaves the fault record and nothing else (R60 step 5, R140). -/
theorem command_of_error {i : Instr} {rule : Config → Engine → Except Raise Engine} {s : State} {r : Raise}
    (h : s.engine.faulted = false) (ha : s.cfg.admits i = true)
    (hr : rule s.cfg (s.engine.prologue s.cfg.field i) = .error r) :
    command i rule s = nextEngine s ((s.engine.prologue s.cfg.field i).enterFault (encode i) r) := by
  simp [command, Engine.command, h, ha, hr, Engine.finish, nextEngine]

/-- With four registers the engine has every register a command can name (R56). -/
theorem Config.has_of_four {c : Config} (h : 4 ≤ c.npoly) (r : PReg) : c.has r = true := by
  have := r.num.isLt
  simp only [Config.has, decide_eq_true_eq]
  omega

/-- With four registers every command is one of this engine's. -/
theorem Config.admits_of_four {c : Config} (h : 4 ≤ c.npoly) (i : Instr) : c.admits i = true := by
  simp [Config.admits, Config.has_of_four h]

/-- Under the invariant the prologue of a table-using command is `afterInit`. -/
theorem Engine.prologue_of_inv {s : State} {i : Instr} (h : Inv s) (hu : usesTables i = true) :
    s.engine.prologue s.cfg.field i = s.engine.afterInit s.cfg.field := by
  rw [Engine.prologue_of_uses hu, Engine.tablesInit_of_inv h]

/-- `FAULT` and the cause code in their places in `STATUS` (R32, R136). -/
def faultBits : Cause → Word
  | .domainError => 0x12
  | .illegalCommand => 0x22
  | .lengthFault => 0x32
  | .indexFault => 0x42

/-- Fault entry from a live state, for a command that does not use the tables (R140). -/
theorem Engine.enterFault_of_live {s : State} (h : Live s) (w : Word) (r : Raise) :
    s.engine.enterFault w r = s.engine.recordFault (s.engine.status ||| faultBits r.cause) w r.info := by
  obtain ⟨c, a⟩ := r
  rcases status_of_live h with h0 | h0 <;> cases c <;>
    simp [Engine.enterFault, Engine.recordFault, statusFault, Cause.code, faultBits, h0]

/-- Fault entry from a live state after `tables_init()` (R140): `STATUS` is then one number. -/
theorem Engine.enterFault_afterInit_of_live {s : State} (h : Live s) (fp : FieldParams) (w : Word) (r : Raise) :
    (s.engine.afterInit fp).enterFault w r =
      (s.engine.afterInit fp).recordFault (0x1 ||| faultBits r.cause) w r.info := by
  obtain ⟨c, a⟩ := r
  rcases status_of_live h with h0 | h0 <;> cases c <;>
    simp [Engine.enterFault, Engine.recordFault, Engine.afterInit, statusFault, Cause.code, faultBits, h0]

/-- The body of a command's rule. -/
def ruleOf : Instr → Config → Engine → Except Raise Engine
  | .glog n => ruleGlog n
  | .gexp n => ruleGexp n
  | .sclr => ruleSclr
  | .spush b => ruleSpush b
  | .pnew rd k => rulePnew rd k
  | .plen ra => rulePlen ra
  | .pget ra k => rulePget ra k
  | .pmul rd ra rb => rulePmul rd ra rb
  | .pmod rd ra rb => rulePmod rd ra rb
  | .genp rd n => ruleGenp rd n
  | .rsenc n => ruleRsenc n
  | .elen => ruleElen
  | .eget k => ruleEget k

/-- `exec` is R60 around the body of the command's rule. -/
theorem exec_eq_command (i : Instr) (s : State) : exec i s = command i (ruleOf i) s := by
  cases i <;> rfl

/-- `exec` always answers a next state, and changes only the engine. -/
theorem exec_next (i : Instr) (s : State) :
    exec i s = nextEngine s (s.engine.command s.cfg i (ruleOf i)) := by
  rw [exec_eq_command]; rfl

/-- The four ways a command can end: ignored, no command of this engine, completed, faulted. -/
theorem exec_cases {i : Instr} {s t : State} (h : exec i s = .next t) :
    (s.engine.faulted = true ∧ t = s) ∨
    (s.engine.faulted = false ∧ s.cfg.admits i = false ∧
      t = { s with engine := s.engine.enterFault (encode i) Raise.illegal }) ∨
    (s.engine.faulted = false ∧ s.cfg.admits i = true ∧
      ∃ e, ruleOf i s.cfg (s.engine.prologue s.cfg.field i) = .ok e ∧ t = { s with engine := e }) ∨
    (s.engine.faulted = false ∧ s.cfg.admits i = true ∧
      ∃ r, ruleOf i s.cfg (s.engine.prologue s.cfg.field i) = .error r ∧
      t = { s with engine := (s.engine.prologue s.cfg.field i).enterFault (encode i) r }) := by
  rw [exec_eq_command] at h
  cases hf : s.engine.faulted with
  | true =>
    rw [command_of_faulted hf, Host.Outcome.next.injEq] at h
    exact .inl ⟨rfl, h.symm⟩
  | false =>
    right
    cases ha : s.cfg.admits i with
    | false =>
      rw [command_of_absent hf ha, nextEngine, Host.Outcome.next.injEq] at h
      exact .inl ⟨rfl, rfl, h.symm⟩
    | true =>
      right
      cases hr : ruleOf i s.cfg (s.engine.prologue s.cfg.field i) with
      | ok e =>
        rw [command_of_ok hf ha hr, nextEngine, Host.Outcome.next.injEq] at h
        exact .inl ⟨rfl, rfl, e, rfl, h.symm⟩
      | error r =>
        rw [command_of_error hf ha hr, nextEngine, Host.Outcome.next.injEq] at h
        exact .inr ⟨rfl, rfl, r, rfl, h.symm⟩

end Sys2Proof.Machine
end

