-- ==== Sys2Proof/Laws/PerInstr.lean ====
section
/-! SUPPORT. Facts about every command as syntax, one lemma for each constructor. -/

namespace Sys2Proof.Laws.WordFields

/-- R56, R57, R58: the word of a command carries the opcode of its row, `z = 0`, and zero in every
register field the command does not use. -/
def Statement (i : Instr) : Prop :=
  (splitWord (encode i)).op = i.mnemonic.format.op ∧ (splitWord (encode i)).z = 0 ∧
  (i.mnemonic.format.rd = false → (splitWord (encode i)).rd = 0) ∧
  (i.mnemonic.format.ra = false → (splitWord (encode i)).ra = 0) ∧
  (i.mnemonic.format.rb = false → (splitWord (encode i)).rb = 0)

theorem glog (n : Int) : Statement (.glog n) := by
  simp only [Statement, encode, splitWord_joinFields]
  refine ⟨rfl, rfl, ?_, ?_, ?_⟩ <;> intro h <;> rfl
theorem gexp (n : Int) : Statement (.gexp n) := by
  simp only [Statement, encode, splitWord_joinFields]
  refine ⟨rfl, rfl, ?_, ?_, ?_⟩ <;> intro h <;> rfl
theorem sclr : Statement .sclr := by
  simp only [Statement, encode, splitWord_joinFields]
  refine ⟨rfl, rfl, ?_, ?_, ?_⟩ <;> intro h <;> rfl
theorem spush (b : Nat) : Statement (.spush b) := by
  simp only [Statement, encode, splitWord_joinFields]
  refine ⟨rfl, rfl, ?_, ?_, ?_⟩ <;> intro h <;> rfl
theorem pnew (rd : PReg) (k : Nat) : Statement (.pnew rd k) := by
  simp only [Statement, encode, splitWord_joinFields]
  refine ⟨rfl, rfl, ?_, ?_, ?_⟩ <;> intro h <;> first | rfl | cases h
theorem plen (ra : PReg) : Statement (.plen ra) := by
  simp only [Statement, encode, splitWord_joinFields]
  refine ⟨rfl, rfl, ?_, ?_, ?_⟩ <;> intro h <;> first | rfl | cases h
theorem pget (ra : PReg) (k : Nat) : Statement (.pget ra k) := by
  simp only [Statement, encode, splitWord_joinFields]
  refine ⟨rfl, rfl, ?_, ?_, ?_⟩ <;> intro h <;> first | rfl | cases h
theorem pmul (rd ra rb : PReg) : Statement (.pmul rd ra rb) := by
  simp only [Statement, encode, splitWord_joinFields]
  refine ⟨rfl, rfl, ?_, ?_, ?_⟩ <;> intro h <;> first | rfl | cases h
theorem pmod (rd ra rb : PReg) : Statement (.pmod rd ra rb) := by
  simp only [Statement, encode, splitWord_joinFields]
  refine ⟨rfl, rfl, ?_, ?_, ?_⟩ <;> intro h <;> first | rfl | cases h
theorem genp (rd : PReg) (n : Nat) : Statement (.genp rd n) := by
  simp only [Statement, encode, splitWord_joinFields]
  refine ⟨rfl, rfl, ?_, ?_, ?_⟩ <;> intro h <;> first | rfl | cases h
theorem rsenc (n : Nat) : Statement (.rsenc n) := by
  simp only [Statement, encode, splitWord_joinFields]
  refine ⟨rfl, rfl, ?_, ?_, ?_⟩ <;> intro h <;> rfl
theorem elen : Statement .elen := by
  simp only [Statement, encode, splitWord_joinFields]
  refine ⟨rfl, rfl, ?_, ?_, ?_⟩ <;> intro h <;> rfl
theorem eget (k : Nat) : Statement (.eget k) := by
  simp only [Statement, encode, splitWord_joinFields]
  refine ⟨rfl, rfl, ?_, ?_, ?_⟩ <;> intro h <;> rfl

end Sys2Proof.Laws.WordFields
end

