-- ==== Sys2Proof/Laws/Ports.lean ====
section
/-! SUPPORT. The port window: which access reaches which port, and all that one step can do. -/

namespace Sys2Proof.Machine

/-- R40: the aligned 32-bit access to slot `k` of the window reaches the port of that slot. -/
theorem portOf_slot {c : Config} (hc : LegalConfig c) {k : Nat} (hk : k < 8) :
    portOf c (c.base + 4 * k) 32 = .ok (portAtSlot k) := by
  have hb := hc.2.1
  unfold portOf
  rw [if_neg (by omega), if_neg (by decide), if_neg (by omega)]
  congr 2
  omega

theorem portOf_cmd {c : Config} (hc : LegalConfig c) : portOf c c.base 32 = .ok .cmd := by
  exact portOf_slot hc (k := 0) (by decide)

/-- R44: an access without a meaning is refused, and no other. -/
theorem portOf_error_iff {c : Config} {addr bits : Nat} :
    (∃ r, portOf c addr bits = .error r) ↔
      addr < c.base ∨ c.base + 32 ≤ addr ∨ bits ≠ 32 ∨ addr % 4 ≠ 0 := by
  unfold portOf
  split
  · exact ⟨fun _ => by omega, fun _ => ⟨_, rfl⟩⟩
  split
  · exact ⟨fun _ => by omega, fun _ => ⟨_, rfl⟩⟩
  split
  · exact ⟨fun _ => by omega, fun _ => ⟨_, rfl⟩⟩
  · constructor
    · rintro ⟨r, hr⟩; cases hr
    · intro h; exfalso; omega

/-- A write to `CMD` always answers a next state that differs in the engine alone. -/
theorem writeCmd_next (w : Word) (s : State) : ∃ e, writeCmd w s = nextEngine s e := by
  unfold writeCmd
  split
  · exact ⟨s.engine, rfl⟩
  · split
    · exact ⟨_, rfl⟩
    · rw [exec_next]; exact ⟨_, rfl⟩

/-- A write to `CMD`, by R60: ignored, an illegal word, or a command. -/
theorem writeCmd_cases (w : Word) (s : State) :
    (s.engine.faulted = true ∧ writeCmd w s = .next s) ∨
    (s.engine.faulted = false ∧ (∃ r, decode w = .error r) ∧
      writeCmd w s = nextEngine s (s.engine.enterFault w Raise.illegal)) ∨
    (s.engine.faulted = false ∧ ∃ i, decode w = .ok i ∧ writeCmd w s = exec i s) := by
  unfold writeCmd
  cases hf : s.engine.faulted
  · cases hd : decode w with
    | error r => exact .inr (.inl ⟨rfl, ⟨r, rfl⟩, rfl⟩)
    | ok i => exact .inr (.inr ⟨rfl, i, rfl, rfl⟩)
  · exact .inl ⟨rfl, rfl⟩

/-- All that a step which answers a next state can have done. -/
theorem step_cases {s t : State} (h : step s = .next t) :
    (s.pending = [] ∧ t = s) ∨
    (∃ rest, s.pending = .reset :: rest ∧ t = { s with pending := rest, engine := Engine.reset }) ∨
    (∃ addr bits p rest, s.pending = .read addr bits :: rest ∧ portOf s.cfg addr bits = .ok p ∧
      t = { s with pending := rest, returned := s.returned ++ [s.engine.readPort p] }) ∨
    (∃ addr bits v p rest, s.pending = .write addr bits v :: rest ∧ portOf s.cfg addr bits = .ok p ∧
      p ≠ .cmd ∧ t = { s with pending := rest }) ∨
    (∃ addr bits w rest, s.pending = .write addr bits w :: rest ∧ portOf s.cfg addr bits = .ok .cmd ∧
      writeCmd w { s with pending := rest } = .next t) := by
  unfold step hostStep at h
  split at h
  · rename_i hp; cases h; exact .inl ⟨hp, rfl⟩
  · rename_i a rest hp
    cases a with
    | reset => cases h; exact .inr (.inl ⟨rest, hp, rfl⟩)
    | read addr bits =>
      simp only [hostAct, hostRead] at h
      split at h
      · cases h
      · rename_i p hport
        cases h
        exact .inr (.inr (.inl ⟨addr, bits, p, rest, hp, hport, rfl⟩))
    | write addr bits v =>
      simp only [hostAct, hostWrite] at h
      split at h
      · cases h
      · rename_i p hport
        cases p with
        | cmd => exact .inr (.inr (.inr (.inr ⟨addr, bits, v, rest, hp, hport, h⟩)))
        | status => cases h; exact .inr (.inr (.inr (.inl ⟨addr, bits, v, _, rest, hp, hport, nofun, rfl⟩)))
        | res => cases h; exact .inr (.inr (.inr (.inl ⟨addr, bits, v, _, rest, hp, hport, nofun, rfl⟩)))
        | finfo => cases h; exact .inr (.inr (.inr (.inl ⟨addr, bits, v, _, rest, hp, hport, nofun, rfl⟩)))
        | farg => cases h; exact .inr (.inr (.inr (.inl ⟨addr, bits, v, _, rest, hp, hport, nofun, rfl⟩)))
        | reserved => cases h; exact .inr (.inr (.inr (.inl ⟨addr, bits, v, _, rest, hp, hport, nofun, rfl⟩)))

end Sys2Proof.Machine
end

