-- ==== Sys2Proof/Laws/Tables.lean ====
section
/-! SUPPORT. The tables: what a fill changes, that filling twice is filling once, and reads of ready
tables. -/

namespace Sys2Proof.Machine

@[simp] theorem fill_exp (fp : FieldParams) (t : Tables) : (t.fill fp).exp = expTable fp := rfl

@[simp] theorem fill_log (fp : FieldParams) (t : Tables) :
    (t.fill fp).log = fillLog t.log 0 (powers fp 255 1) := by
  simp only [Tables.fill]

theorem Tables.Ready.exp_eq {fp : FieldParams} {t : Tables} (h : t.Ready fp) : t.exp = expTable fp := by
  rw [← fill_exp fp t, h]

theorem Tables.Ready.log_eq {fp : FieldParams} {t : Tables} (h : t.Ready fp) :
    fillLog t.log 0 (powers fp 255 1) = t.log := by
  rw [← fill_log fp t, h]

/-- With `ALPHA = 2` one pass of the construction is the doubling that R23 writes. -/
theorem nextPower_two (prim v : Nat) : nextPower ⟨prim, 2⟩ v = double prim v := by
  simp [nextPower, timesBits]

/-- An entry of `LOG` that no listed value names is left as it was. -/
theorem fillLog_of_notMem {log : Vector Byte tableSize} {i v : Nat} {xs : ByteSeq}
    (h : ∀ x ∈ xs, x.toNat ≠ v) : (fillLog log i xs)[v]? = log[v]? := by
  induction xs generalizing log i with
  | nil => rfl
  | cons x xs ih =>
    have hx : x.toNat ≠ v := h x List.mem_cons_self
    rw [fillLog, ih fun y hy => h y (List.mem_cons_of_mem _ hy), Vector.getElem?_setIfInBounds]
    simp [hx]

/-- An entry of `LOG` that some listed value names does not depend on what was there before. -/
theorem fillLog_of_mem {log log' : Vector Byte tableSize} {i v : Nat} {xs : ByteSeq}
    (h : ∃ x ∈ xs, x.toNat = v) : (fillLog log i xs)[v]? = (fillLog log' i xs)[v]? := by
  induction xs generalizing log log' i with
  | nil => exact absurd h (by simp)
  | cons x xs ih =>
    by_cases hm : ∃ y ∈ xs, y.toNat = v
    · exact ih hm
    · have hn : ∀ y ∈ xs, y.toNat ≠ v := fun y hy he => hm ⟨y, hy, he⟩
      obtain ⟨y, hy, he⟩ := h
      have hxv : x.toNat = v := by
        rcases List.mem_cons.mp hy with rfl | hy'
        · exact he
        · exact absurd he (hn y hy')
      rw [fillLog, fillLog, fillLog_of_notMem hn, fillLog_of_notMem hn, Vector.getElem?_setIfInBounds,
        Vector.getElem?_setIfInBounds, if_pos hxv, if_pos hxv]

/-- R24: filling ready tables again would change nothing. -/
@[simp] theorem fill_ready (fp : FieldParams) (t : Tables) : (t.fill fp).Ready fp := by
  have : fillLog (fillLog t.log 0 (powers fp 255 1)) 0 (powers fp 255 1) =
      fillLog t.log 0 (powers fp 255 1) := by
    apply Vector.ext
    intro v hv
    have : (fillLog (fillLog t.log 0 (powers fp 255 1)) 0 (powers fp 255 1))[v]? =
        (fillLog t.log 0 (powers fp 255 1))[v]? := by
      by_cases h : ∃ x ∈ powers fp 255 1, x.toNat = v
      · exact fillLog_of_mem h
      · exact fillLog_of_notMem fun x hx he => h ⟨x, hx, he⟩
    simpa [Vector.getElem?_eq_getElem hv] using this
  simp [Tables.Ready, Tables.fill, this]

/-- After the prologue of a table-using command the tables are ready. -/
theorem prologue_ready {s : State} {i : Instr} (h : Inv s) (hu : usesTables i = true) :
    (s.engine.prologue s.cfg.field i).tables.Ready s.cfg.field := by
  rw [Engine.prologue_of_uses hu, Engine.tablesInit_of_inv h]
  exact fill_ready _ _

/-- R76: `glog` of an integer below 1 or above 255. -/
theorem glog_of_out {t : Tables} {n : Int} (h : n < 1 ∨ 255 < n) : glog t n = .error (Raise.domain n) := by
  unfold glog
  by_cases h1 : n < 1
  · simp [h1]
  · simp [h1, show n > 255 by omega]

/-- R76: `glog` of an element. -/
theorem glog_of_in {t : Tables} {n : Int} (h1 : 1 ≤ n) (h2 : n ≤ 255) :
    glog t n = .ok (t.log.getD n.toNat 0).toNat := by
  simp [glog, show ¬ n < 1 by omega, show ¬ n > 255 by omega]

/-- R79: a zero factor fails, whatever the other is. -/
theorem gmul_zero_left (t : Tables) (b : Byte) : gmul t 0 b = .error (Raise.domain 0) := by
  have h : glog t (0 : Byte).toNat = .error (Raise.domain 0) := glog_of_out (.inl (by decide))
  rw [gmul, h, error_bind]

end Sys2Proof.Machine
end

