-- ==== Sys2Proof/Tests/Slice0.lean ====
section
/-! SUPPORT. Tests. Expected values are the spec's own: the encodings of R65, the vectors of
95_test_vectors.md and the worked examples of the rules. The second half gives, for each statement with
hypotheses, a state and operands that meet all of them. -/

namespace Sys2Proof.Tests
open Sys2Proof.Machine

/-! ### WellFormed: an ill-formed term for each check -/

theorem test_wf_glog_too_large : Instr.wf (.glog 32768) = false := by decide
theorem test_wf_gexp_too_small : Instr.wf (.gexp (-32769)) = false := by decide
theorem test_wf_spush_too_large : Instr.wf (.spush 256) = false := by decide
theorem test_wf_pnew_too_large : Instr.wf (.pnew .p0 65536) = false := by decide
theorem test_wf_pget_too_large : Instr.wf (.pget .p0 65536) = false := by decide
theorem test_wf_genp_too_large : Instr.wf (.genp .p0 256) = false := by decide
theorem test_wf_rsenc_too_large : Instr.wf (.rsenc 256) = false := by decide
theorem test_wf_eget_too_large : Instr.wf (.eget 65536) = false := by decide
theorem test_wf_bounds : Instr.wf (.glog (-32768)) = true ∧ Instr.wf (.gexp 32767) = true ∧
    Instr.wf (.spush 255) = true ∧ Instr.wf (.eget 65535) = true := by decide

/-! ### Decode: words written out bit by bit from R56 and R58 -/

theorem test_decode_glog : decode 0b00000001_00_00_00_00_1111111111111111#32 = .ok (.glog (-1)) := by decide
theorem test_decode_gexp : decode 0b00000010_00_00_00_00_0000000111111100#32 = .ok (.gexp 508) := by decide
theorem test_decode_sclr : decode 0b00010000_00_00_00_00_0000000000000000#32 = .ok .sclr := by decide
theorem test_decode_spush : decode 0b00010001_00_00_00_00_0000000011101100#32 = .ok (.spush 236) := by decide
theorem test_decode_pnew : decode 0b00010010_10_00_00_00_0000000000001010#32 = .ok (.pnew .p2 10) := by decide
theorem test_decode_plen : decode 0b00010011_00_11_00_00_0000000000000000#32 = .ok (.plen .p3) := by decide
theorem test_decode_pget : decode 0b00010100_00_01_00_00_0000000000000111#32 = .ok (.pget .p1 7) := by decide
theorem test_decode_pmul : decode 0b00100000_00_01_10_00_0000000000000000#32 = .ok (.pmul .p0 .p1 .p2) := by
  decide
theorem test_decode_pmod : decode 0b00100001_11_00_01_00_0000000000000000#32 = .ok (.pmod .p3 .p0 .p1) := by
  decide
theorem test_decode_genp : decode 0b00100010_01_00_00_00_0000000000000111#32 = .ok (.genp .p1 7) := by decide
theorem test_decode_rsenc : decode 0b00110000_00_00_00_00_0000000000001010#32 = .ok (.rsenc 10) := by decide
theorem test_decode_elen : decode 0b00110001_00_00_00_00_0000000000000000#32 = .ok .elen := by decide
theorem test_decode_eget : decode 0b00110010_00_00_00_00_0000000000001001#32 = .ok (.eget 9) := by decide
theorem test_decode_rejects_by_name : decode 0x03000000 = .error .unknownOpcode ∧
    decode 0x20020000 = .error .nonzeroZ ∧ decode 0x22100000 = .error .nonzeroRegister ∧
    decode 0x30000100 = .error .nonzeroImmediate := by decide
theorem test_encode : encode (.gexp (-254)) = 0x0200FF02 ∧ encode (.pmod .p3 .p0 .p1) = 0x21C40000 ∧
    encode (.pget .p1 7) = 0x14100007 := by decide
theorem test_decodeTableWord : decodeTableWord 32 0x22400007 = some (.genp .p1 7) ∧
    decodeTableWord 32 0xFFFFFFFF = none := by decide

/-- R63 and R64: text to words. -/
theorem test_assemble_line :
    assembleLine ['P', 'N', 'E', 'W', ' ', 'P', '2', ',', ' ', '1', '0'] = some [0x1280000A] ∧
    assembleLine ['G', 'L', 'O', 'G', ' ', '-', '1', ';', 'x'] = some [0x0100FFFF] ∧
    assembleLine ['S', 'P', 'U', 'S', 'H', ' ', '0', 'x', '1', '0', '0'] = none ∧
    assembleLine ['R', 'S', 'B', 'L', 'O', 'C', 'K', ' ', '2', ',', '7'] =
      some [0x10000000, 0x11000007, 0x30000002] := by decide +kernel

/-! ### The tables -/

/-- `LOG` read off `EXP`: for each value the place where it stands. -/
def logByPlace : ByteSeq :=
  (List.range 256).map fun v => BitVec.ofNat 8 ((powers FieldParams.standard 255 1).idxOf (BitVec.ofNat 8 v))

/-- Tables that hold what R21 and R22 list, with another value in `LOG[0]` than reset has. -/
def readyTables : Tables := ⟨expTable FieldParams.standard, ⟨⟨logByPlace⟩, by simp [logByPlace]⟩⟩

/-- R23 applied to the reset tables gives `LOG` of R22 at its two ends. -/
theorem test_fill_log : ((Tables.reset.fill FieldParams.standard).log.getD 1 0, (Tables.reset.fill FieldParams.standard).log.getD 255 0) =
    (0, 175) := by decide +kernel
theorem test_fill_exp : ((Tables.reset.fill FieldParams.standard).exp.getD 8 0, (Tables.reset.fill FieldParams.standard).exp.getD 254 0,
    (Tables.reset.fill FieldParams.standard).exp.getD 255 0) = (29, 142, 1) := by decide +kernel

/-- R21 with `ALPHA = 3`, that is `x + 1`: its square is `x^2 + 1`, and times `x + 1` again
`x^3 + x^2 + x + 1`. -/
theorem test_fill_alpha : ((Tables.reset.fill ⟨0x11D, 3⟩).exp.getD 1 0, (Tables.reset.fill ⟨0x11D, 3⟩).exp.getD 2 0,
    (Tables.reset.fill ⟨0x11D, 3⟩).exp.getD 3 0) = (3, 5, 15) := by decide +kernel

/-! ### One step of each command -/

/-- An engine with the tables ready and something in every item. -/
def sampleEngine : Engine :=
  { Engine.reset with
    tables := readyTables
    status := 0x1
    p := ⟨[1, 1], [1, 2], [1, 2, 0, 0], [1, 0, 1]⟩
    sb := [0, 1, 2]
    eb := [0, 247]
    res := 9 }

/-- A state around an engine. -/
def around (e : Engine) : State := { State.reset with engine := e }

/-- The sample state. -/
def sample : State := around sampleEngine

/-- The engine that a command leaves. -/
def after (i : Instr) (s : State) : Option Engine :=
  match exec i s with
  | .next t => some t.engine
  | .fault _ => none
  | .refused _ => none

theorem test_glog : (after (.glog 3) sample).map (·.res) = some 25 := by decide +kernel
theorem test_glog_fault : (after (.glog (-1)) State.reset).map (fun e => (e.status, e.finfo, e.farg, e.res)) =
    some (0x13, 0x0100FFFF, 0xFFFFFFFF, 0) := by decide +kernel
theorem test_gexp : (after (.gexp 511) sample).map (·.res) = some 2 := by decide +kernel
theorem test_gexp_negative : (after (.gexp (-256)) State.reset).map (fun e => (e.res, e.status)) =
    some (142, 1) := by decide +kernel
theorem test_sclr : (after .sclr sample).map (fun e => (e.sb, e.res)) = some ([], 9) := by decide +kernel
theorem test_spush : (after (.spush 7) sample).map (·.sb) = some [0, 1, 2, 7] := by decide +kernel
theorem test_spush_full : (after (.spush 5) (around { Engine.reset with sb := List.replicate 256 5 })).map
    (fun e => (e.status, e.farg, e.sb.length)) = some (0x32, 257, 256) := by decide +kernel
theorem test_pnew : (after (.pnew .p2 2) (around { Engine.reset with sb := [0, 1, 2] })).map (·.p.p2) =
    some [1, 2, 0, 0] := by decide +kernel
theorem test_pnew_fault : (after (.pnew .p0 256) (around { Engine.reset with sb := [1] })).map
    (fun e => (e.status, e.farg, e.p.p0)) = some (0x32, 257, []) := by decide +kernel
theorem test_plen : (after (.plen .p2) sample).map (·.res) = some 4 := by decide +kernel
theorem test_pget : (after (.pget .p2 1) sample).map (·.res) = some 2 := by decide +kernel
theorem test_pget_fault : (after (.pget .p2 4) sample).map (fun e => (e.status, e.farg, e.finfo, e.res)) =
    some (0x43, 4, 0x14200004, 9) := by decide +kernel
theorem test_pmul : (after (.pmul .p2 .p0 .p1) sample).map (·.p.p2) = some [1, 3, 2] := by decide +kernel
theorem test_pmul_fault : (after (.pmul .p2 .p3 .p0) sample).map (fun e => (e.status, e.finfo, e.farg, e.p.p2)) =
    some (0x13, 0x20B00000, 0, [1, 2, 0, 0]) := by decide +kernel
theorem test_pmod : (after (.pmod .p0 .p1 .p0) (around { sampleEngine with
    p := ⟨[1, 3, 2], [1, 0, 0, 0], [], []⟩ })).map (·.p.p0) = some [7, 6] := by decide +kernel
theorem test_pmod_empty_divisor : (after (.pmod .p0 .p1 .p2) State.reset).map (fun e => (e.status, e.farg)) =
    some (0x13, 0) := by decide +kernel
theorem test_genp : (after (.genp .p1 4) sample).map (·.p.p1) = some [1, 15, 54, 120, 64] := by decide +kernel
theorem test_rsenc : (after (.rsenc 2) (around { sampleEngine with sb := [1, 246] })).map
    (fun e => (e.eb, e.sb, e.res)) = some ([0, 247], [1, 246], 9) := by decide +kernel
theorem test_rsenc_hello_world : (after (.rsenc 10) (around { sampleEngine with
    sb := [32, 91, 11, 120, 209, 114, 220, 77, 67, 64, 236, 17, 236, 17, 236, 17] })).map (·.eb) =
    some [196, 35, 39, 119, 235, 215, 231, 226, 93, 23] := by decide +kernel
/-- D7: a result over the capacity of `EB` raises LengthFault and writes nothing. -/
theorem test_rsenc_over_emax : (after (.rsenc 11) { around { sampleEngine with sb := [1] } with
    cfg := { Config.standard with emax := 10 } }).map (fun e => (e.status, e.farg, e.eb)) =
    some (0x33, 11, [0, 247]) := by decide +kernel
theorem test_rsenc_at_emax : (after (.rsenc 2) { around { sampleEngine with sb := [1, 246] } with
    cfg := { Config.standard with emax := 2 } }).map (·.eb) = some [0, 247] := by decide +kernel
theorem test_elen : (after .elen sample).map (·.res) = some 2 := by decide +kernel
theorem test_eget : (after (.eget 0) sample).map (·.res) = some 0 := by decide +kernel
theorem test_eget_fault : (after (.eget 2) sample).map (fun e => (e.status, e.farg, e.res)) =
    some (0x43, 2, 9) := by decide +kernel

/-- R130's example: the interleave of two blocks of different length. -/
theorem test_interleave : interleave [[0x10, 0x20, 0x30], [0x40, 0x50, 0x60, 0x70]] [[0x40, 0x40], [0x29, 0x29]] =
    [0x10, 0x40, 0x20, 0x50, 0x30, 0x60, 0x70, 0x40, 0x29, 0x40, 0x29] := by decide +kernel

/-- An RSBLOCKS table for the test: R130's two blocks at version 1, level H, one block elsewhere. -/
def sampleTable : RsBlockTable := fun v level => if v.1 = 1 ∧ level = .h then [⟨5, 3⟩, ⟨6, 4⟩] else [⟨26, 19⟩]

/-- The data buffer of R130's example. -/
def sampleBuffer : ByteSeq := [0x10, 0x20, 0x30, 0x40, 0x50, 0x60, 0x70]

/-- R130's example as a whole encode, the EC codewords as the reads return them. -/
theorem test_encoded_stream : encodedStream sampleTable ⟨1, by decide⟩ .h sampleBuffer [0x40, 0x40, 0x29, 0x29] =
    [0x10, 0x40, 0x20, 0x50, 0x30, 0x60, 0x70, 0x40, 0x29, 0x40, 0x29] := by decide +kernel

/-- The step from reset with a command word placed: V-FD-12. -/
theorem test_step_from_reset : (match step (State.reset.withFetchWord 32 0x32000000) with
    | .next t => some (t.engine.status, t.engine.farg, t.pending)
    | _ => none) = some (0x42, 0, []) := by decide +kernel

/-! ### The hypotheses of every statement are met -/

/-- A check that is enough for the invariant of a state whose tables are not ready. -/
def invCheck (s : State) : Bool :=
  decide (LegalConfig s.cfg) && !s.engine.trdy &&
    [PReg.p0, .p1, .p2, .p3].all (fun r =>
      strip (s.engine.p.read r) == s.engine.p.read r && decide ((s.engine.p.read r).length ≤ s.cfg.pmax) &&
        (s.cfg.has r || s.engine.p.read r == [])) &&
    decide (s.engine.sb.length ≤ s.cfg.smax) && decide (s.engine.eb.length ≤ s.cfg.emax) &&
    decide (s.engine.status ∈ legalStatus) &&
    (s.engine.faulted || (s.engine.finfo == 0 && s.engine.farg == 0))

theorem inv_of_check {s : State} (h : invCheck s = true) : Inv s := by
  simp only [invCheck, Bool.and_eq_true, decide_eq_true_eq, Bool.not_eq_true', List.all_cons, List.all_nil,
    Bool.and_true, beq_iff_eq, Bool.or_eq_true] at h
  obtain ⟨⟨⟨⟨⟨⟨hc, ht⟩, h0, h1, h2, h3⟩, hs⟩, he⟩, hst⟩, hr⟩ := h
  refine ⟨hc, fun hh => absurd hh (by simp [ht]), ?_, ?_, ?_, hs, he, hst, ?_⟩
  · intro r; cases r <;> [exact h0.1.1; exact h1.1.1; exact h2.1.1; exact h3.1.1]
  · intro r; cases r <;> [exact h0.1.2; exact h1.1.2; exact h2.1.2; exact h3.1.2]
  · intro r hr
    have h : s.cfg.has r = true ∨ s.engine.p.read r = [] := by
      cases r <;> [exact h0.2; exact h1.2; exact h2.2; exact h3.2]
    rcases h with h | h
    · rw [hr] at h; cases h
    · exact h
  · intro hf
    rcases hr with hr | hr
    · rw [hf] at hr; cases hr
    · exact hr

/-- A live state is one whose invariant checks and which is not in the fault state. -/
theorem live_of_check {s : State} (h : invCheck s = true) (hf : s.engine.faulted = false) : Live s :=
  ⟨inv_of_check h, hf⟩

/-- A live state with something in every register, before any table use. -/
def fresh : State :=
  around { Engine.reset with p := ⟨[1, 1], [1, 2], [], [1, 0, 1]⟩, sb := [0, 1, 2], eb := [0, 247], res := 9 }

theorem fresh_live : Live fresh := live_of_check (by decide) (by decide)

/-- The same in an engine of small capacity, behind a window at another address. -/
def small : State := { fresh with cfg := { Config.standard with pmax := 3, smax := 3, base := 64 } }

theorem small_live : Live small := live_of_check (by decide) (by decide)

/-- An engine with two polynomial registers. -/
def twoRegs : State :=
  { around { Engine.reset with p := ⟨[1, 1], [1, 2], [], []⟩ } with cfg := { Config.standard with npoly := 2 } }

theorem twoRegs_live : Live twoRegs := live_of_check (by decide) (by decide)

/-- A state in the fault state. -/
def broken : State := around { Engine.reset with status := 0x22, finfo := 0xFFFFFFFF }

theorem broken_inv : Inv broken := inv_of_check (by decide)

/-- A state with the host's next actions given. -/
def withActions (s : State) (as : List HostAction) : State := { s with pending := as }

theorem witness_DecodeOfEncode : Instr.wf (.glog (-32768)) = true ∧ Instr.wf (.pnew .p3 65535) = true := by decide

theorem witness_EncodeOfDecode : decode 0x1430FFFF = .ok (.pget .p3 65535) := by decide

theorem witness_AssemblerRefusesAndNeverTruncates :
    Instr.wf (.spush 256) = false ∧ Instr.wf (.spush 255) = true := by decide

theorem witness_StepRunsTheDecodedCommand :
    LegalConfig small.cfg ∧ (withActions small [.write 64 32 0x13000000, .reset]).Writes 0x13000000 [.reset] ∧
    decode 0x13000000 = .ok (.plen .p0) := by decide

theorem witness_NoHostActionNoChange : fresh.pending = [] := rfl

theorem witness_IllegalWordRaisesIllegalCommand :
    Live (withActions fresh [.write 0 32 0x13010000]) ∧
    (withActions fresh [.write 0 32 0x13010000]).Writes 0x13010000 [] ∧
    ∀ row ∈ opcodeTable, (0x13010000 : Word) &&& row.2.2 ≠ row.2.1 :=
  ⟨live_of_check (by decide) (by decide), rfl, by decide⟩

theorem witness_FaultStateIgnoresCommands :
    LegalConfig broken.cfg ∧ broken.engine.faulted = true ∧
    (withActions broken [.write 0 32 0x10000000]).Writes 0x10000000 [] := by decide

theorem witness_FaultStateHoldsTheEngine :
    broken.engine.faulted = true ∧ ¬ (withActions broken [.read 4 32]).AtReset ∧
    step (withActions broken [.read 4 32]) = .next { broken with returned := [0x22] } :=
  ⟨by decide, by decide, rfl⟩

theorem witness_OnlyResetClearsFaultAndReady :
    step (withActions broken [.reset]) = .next State.reset ∧ broken.engine.faulted = true ∧
    State.reset.engine.faulted = false ∧ step (withActions sample [.reset]) = .next State.reset ∧
    sample.engine.trdy = true ∧ State.reset.engine.trdy = false :=
  ⟨rfl, by decide, by decide, rfl, by decide, by decide⟩

theorem witness_ReadsReturnThePortTable :
    LegalConfig small.cfg ∧ (7 : Nat) < 8 ∧
    (withActions small [.read (64 + 4 * 7) 32, .reset]).pending = .read (small.cfg.base + 4 * 7) 32 :: [.reset] ∧
    (withActions small [.read 64 32, .read 64 32]).pending =
      .read (small.cfg.base + 4 * 0) 32 :: .read (small.cfg.base + 4 * 0) 32 :: [] := by decide

theorem witness_PointlessAccessesChangeNothing :
    LegalConfig small.cfg ∧ 7 < 8 ∧
    (withActions small [.write 68 32 5]).pending = .write (small.cfg.base + 4 * 1) 32 5 :: [] ∧
    (withActions small [.write 92 32 5]).pending = .write (small.cfg.base + 4 * 7) 32 5 :: [] ∧
    (withActions small [.read 84 32]).pending = .read (small.cfg.base + 4 * 5) 32 :: [] := by decide

theorem witness_ReadSeesTheLatestCommand :
    LegalConfig small.cfg ∧
    (withActions small [.write 64 32 0x13000000, .read 68 32, .read 72 32, .reset]).Writes 0x13000000
      (.read (small.cfg.base + 4) 32 :: .read (small.cfg.base + 8) 32 :: [.reset]) := by decide

theorem witness_OnlyMeaninglessAccessesAreRefused :
    LegalConfig small.cfg ∧ (∃ r, step (withActions small [.read 60 32]) = .refused r) ∧
    (∃ r, step (withActions small [.write 96 32 0]) = .refused r) ∧
    (∃ r, step (withActions small [.read 64 8]) = .refused r) ∧
    (∃ r, step (withActions small [.read 93 32]) = .refused r) ∧
    ¬ ∃ r, step (withActions small [.read 92 32]) = .refused r := by
  refine ⟨by decide, ⟨_, rfl⟩, ⟨_, rfl⟩, ⟨_, rfl⟩, ⟨_, rfl⟩, ?_⟩
  rintro ⟨r, hr⟩
  cases hr

theorem witness_ResetSetsEveryItem : (withActions broken [.reset, .read 0 32]).pending = .reset :: [.read 0 32] := rfl

theorem witness_ResetKeepsTheHostsSide :
    (withActions broken [.reset]).pending = .reset :: [] ∧ step (withActions broken [.reset]) = .next State.reset :=
  ⟨rfl, rfl⟩

theorem witness_StepKeepsTheInvariant :
    Inv (withActions fresh [.write 0 32 0x10000000]) ∧
    ∃ t, step (withActions fresh [.write 0 32 0x10000000]) = .next t :=
  ⟨inv_of_check (by decide), _, rfl⟩

theorem witness_TableUsersInitialiseTheTables : fresh.engine.faulted = false ∧ fresh.engine.trdy = false ∧
    sample.engine.faulted = false ∧ sample.engine.trdy = true := by decide

theorem witness_ReadyTablesNeverChange :
    sample.engine.trdy = true ∧ ¬ (withActions sample [.write 0 32 0x10000000]).AtReset ∧
    ∃ t, step (withActions sample [.write 0 32 0x10000000]) = .next t :=
  ⟨by decide, by decide, _, rfl⟩

theorem witness_CommandsWriteOnlyWhatTheyAreListedFor : ∃ t, exec (.pmul .p2 .p0 .p1) fresh = .next t := ⟨_, rfl⟩

theorem witness_FaultingCommandHasNoPartialEffect :
    fresh.engine.faulted = false ∧ ∃ t, exec (.pget .p0 2) fresh = .next t ∧ t.engine.faulted = true :=
  ⟨by decide, _, rfl, by decide⟩

theorem witness_EachCommandRaisesOnlyItsFaults :
    Live fresh ∧ ∃ t, exec (.eget 2) fresh = .next t ∧ t.engine.faulted = true :=
  ⟨fresh_live, _, rfl, by decide⟩

/-- A state that differs from `fresh` in every entry of the unspecified tables. -/
def otherTables : State :=
  around { fresh.engine with tables := ⟨Vector.replicate tableSize 7, Vector.replicate tableSize 9⟩ }

theorem witness_UnspecifiedTablesAreUnobservable :
    Inv fresh ∧ Inv otherTables ∧ Alike fresh.engine otherTables.engine ∧ fresh.cfg = otherTables.cfg ∧
    fresh.pending = otherTables.pending ∧ fresh.returned = otherTables.returned :=
  ⟨fresh_live.1, inv_of_check (by decide),
    ⟨rfl, rfl, rfl, rfl, rfl, rfl, rfl, fun h => absurd h (by decide), fun h => absurd h (by decide)⟩,
    rfl, rfl, rfl⟩

theorem witness_AbsentRegisterIsIllegalCommand :
    Live twoRegs ∧ twoRegs.cfg.admits (.pmul .p0 .p1 .p2) = false ∧ twoRegs.cfg.admits (.pmul .p0 .p1 .p1) = true ∧
    twoRegs.cfg.has .p2 = false ∧ Live fresh ∧ 4 ≤ fresh.cfg.npoly :=
  ⟨twoRegs_live, by decide, by decide, by decide, fresh_live, by decide⟩

/-- The registers of a command exist in engines with four registers and in smaller ones. -/
theorem witness_registers_exist :
    (∀ r, fresh.cfg.has r = true) ∧ (∀ r, small.cfg.has r = true) ∧ twoRegs.cfg.has .p1 = true ∧
    (∀ i, fresh.cfg.admits i = true) ∧ ∀ i, sample.cfg.admits i = true :=
  ⟨Config.has_of_four (by decide), Config.has_of_four (by decide), by decide, Config.admits_of_four (by decide),
    Config.admits_of_four (by decide)⟩

theorem witness_ResultsStayAtMost256 :
    Inv (withActions fresh [.write 0 32 0x13000000]) ∧ fresh.cfg.pmax = 256 ∧ fresh.cfg.emax = 255 ∧
    fresh.engine.res.toNat ≤ 256 ∧ ∃ t, step (withActions fresh [.write 0 32 0x13000000]) = .next t :=
  ⟨inv_of_check (by decide), rfl, rfl, by decide, _, rfl⟩

/-- Tables that are ready. -/
theorem witness_ready_tables : (Tables.reset.fill FieldParams.standard).Ready FieldParams.standard := fill_ready FieldParams.standard Tables.reset

/-- A state with the tables ready and something in every item. -/
def readySample : State := around { sampleEngine with tables := Tables.reset.fill FieldParams.standard }

/-- A state with the tables ready is live: the statements about live states speak of it too. -/
theorem witness_ready_live : Live readySample ∧ readySample.engine.trdy = true :=
  ⟨⟨⟨by decide, fun _ => witness_ready_tables, fun r => by cases r <;> decide, fun r => by cases r <;> decide,
    fun r => by cases r <;> decide, by decide, by decide, by decide, by decide⟩, by decide⟩, by decide⟩

/-- The operand ranges in the clauses about a command's word, at their two ends. -/
theorem witness_operand_ranges : (-32768 : Int) ≤ -32768 ∧ (32767 : Int) ≤ 32767 ∧
    (0 : Nat) ≤ 255 ∧ (255 : Nat) ≤ 255 ∧ (0 : Nat) ≤ 65535 ∧ (65535 : Nat) ≤ 65535 := by decide

theorem witness_NormalisationLandsInTheTable : ∃ t : Tables, t.Ready FieldParams.standard := ⟨_, witness_ready_tables⟩

theorem witness_GmulIsTheFieldProduct : (∃ t : Tables, t.Ready FieldParams.standard) ∧ (255 : Byte) ≠ 0 ∧ (1 : Byte) ≠ 0 :=
  ⟨⟨_, witness_ready_tables⟩, by decide, by decide⟩

theorem witness_GlogGivesTheLogarithmOrFaults :
    Live fresh ∧ 1 ≤ 1 ∧ 255 ≤ 255 ∧ (0 : Int) < 1 ∧ (255 : Int) < 256 := ⟨fresh_live, by decide⟩

theorem witness_GexpGivesThePower : Live fresh ∧ Live small := ⟨fresh_live, small_live⟩

theorem witness_HostComputesAFieldProduct : Live fresh ∧ 1 ≤ 255 ∧ 255 ≤ 255 ∧ 1 ≤ 1 ∧ 1 ≤ 255 :=
  ⟨fresh_live, by decide⟩

theorem witness_ConstructDropsLeadingZeros :
    (∀ c ∈ ([0, 0] : ByteSeq), c = 0) ∧ ∃ c ∈ ([0, 0, 5, 0] : ByteSeq), c ≠ 0 := by decide

theorem witness_SclrEmptiesTheStagingBuffer : fresh.engine.faulted = false := by decide

theorem witness_SpushAppendsOrFaults :
    Live fresh ∧ 255 ≤ 255 ∧ fresh.engine.sb.length < fresh.cfg.smax ∧
    Live small ∧ small.engine.sb.length = small.cfg.smax :=
  ⟨fresh_live, by decide, by decide, small_live, by decide⟩

theorem witness_PnewConstructsOrFaults :
    Live fresh ∧ Live small ∧ (shifted small.engine.sb 1).length ≤ small.cfg.pmax ∧
    small.cfg.pmax < (shifted small.engine.sb 2).length :=
  ⟨fresh_live, small_live, by decide, by decide⟩

theorem witness_LengthsAreRead : fresh.engine.faulted = false := by decide

theorem witness_PgetReadsOrFaults :
    Live fresh ∧ 1 < (fresh.engine.p.read .p0).length ∧ (fresh.engine.p.read .p0).length ≤ 2 ∧
    (fresh.engine.p.read .p2).length ≤ 0 := ⟨fresh_live, by decide⟩

theorem witness_PmulGivesTheProduct :
    Live fresh ∧ fresh.engine.p.read .p2 = [] ∧ fresh.engine.p.read .p0 ≠ [] ∧
    fresh.engine.p.read .p1 ≠ [] ∧
    (fresh.engine.p.read .p0).length + (fresh.engine.p.read .p1).length - 1 ≤ fresh.cfg.pmax ∧
    NoZero (fresh.engine.p.read .p0) ∧ NoZero (fresh.engine.p.read .p1) := ⟨fresh_live, by decide⟩

theorem witness_PmulFaults :
    Live small ∧ small.engine.p.read .p3 ≠ [] ∧ small.engine.p.read .p0 ≠ [] ∧
    small.cfg.pmax < (small.engine.p.read .p3).length + (small.engine.p.read .p0).length - 1 ∧
    Live fresh ∧ (fresh.engine.p.read .p3).length + (fresh.engine.p.read .p0).length - 1 ≤ fresh.cfg.pmax ∧
    ¬ (NoZero (fresh.engine.p.read .p3) ∧ NoZero (fresh.engine.p.read .p0)) :=
  ⟨small_live, by decide, by decide, by decide, fresh_live, by decide, by decide⟩

theorem witness_PmodGivesTheRemainder :
    Live fresh ∧ fresh.engine.p.read .p3 ≠ [] ∧ fresh.engine.p.read .p0 ≠ [] ∧
    (fresh.engine.p.read .p0).length < (fresh.engine.p.read .p3).length ∧
    (fresh.engine.p.read .p0).length ≤ (fresh.engine.p.read .p1).length ∧
    NoZero (fresh.engine.p.read .p0) := ⟨fresh_live, by decide⟩

theorem witness_RemainderIsUnique :
    ([1, 3] : ByteSeq).headD 0 ≠ 0 ∧ ([1, 0] : ByteSeq) ≠ [] ∧ ([1, 0] : ByteSeq).length = ([1, 0] : ByteSeq).length ∧
    IsPoly [5] ∧ ([5] : ByteSeq).length < ([1, 3] : ByteSeq).length ∧
    xorSeq (product [1, 0] [1, 3]) (rightAlign 3 [5]) = xorSeq (product [1, 0] [1, 3]) (rightAlign 3 [5]) := by
  refine ⟨by decide, by decide, rfl, by decide, by decide, rfl⟩

theorem witness_PmodFaults :
    Live fresh ∧ fresh.engine.p.read .p2 = [] ∧
    (fresh.engine.p.read .p3).length ≤ (fresh.engine.p.read .p3).length ∧
    ¬ NoZero (fresh.engine.p.read .p3) := ⟨fresh_live, by decide⟩

theorem witness_GenpGivesTheGenerator :
    Live fresh ∧ 255 + 1 ≤ fresh.cfg.pmax ∧ Live small ∧ small.cfg.pmax < 3 + 1 :=
  ⟨fresh_live, by decide, small_live, by decide⟩

/-- A live state whose staging buffer is all zero. -/
def zeroData : State := around { Engine.reset with sb := [0, 0] }

theorem witness_RsencGivesTheRemainder :
    Live zeroData ∧ 255 + 1 ≤ zeroData.cfg.pmax ∧ (shifted zeroData.engine.sb 255).length ≤ zeroData.cfg.pmax ∧
    255 ≤ zeroData.cfg.emax ∧ (∀ c ∈ zeroData.engine.sb, c = 0) ∧ Live fresh ∧ 254 + 1 ≤ fresh.cfg.pmax ∧
    (shifted fresh.engine.sb 254).length ≤ fresh.cfg.pmax ∧ 254 ≤ fresh.cfg.emax ∧
    ∃ c ∈ fresh.engine.sb, c ≠ 0 :=
  ⟨live_of_check (by decide) (by decide), by decide, by decide +kernel, by decide, by decide, fresh_live, by decide,
    by decide +kernel, by decide, by decide⟩

/-- A live state with one data codeword. -/
def oneData : State := around { Engine.reset with sb := [1] }

/-- The same with an EC buffer of two bytes. -/
def smallBuffer : State := { oneData with cfg := { Config.standard with emax := 2 } }

theorem witness_RsencFaults :
    Live small ∧ small.cfg.pmax < 3 + 1 ∧ 2 + 1 ≤ small.cfg.pmax ∧
    small.cfg.pmax < (shifted small.engine.sb 2).length ∧ Live oneData ∧ 255 + 1 ≤ oneData.cfg.pmax ∧
    (shifted oneData.engine.sb 255).length ≤ oneData.cfg.pmax ∧ 255 ≤ oneData.cfg.emax ∧
    (∃ c ∈ oneData.engine.sb, c ≠ 0) ∧ Live smallBuffer ∧ 3 + 1 ≤ smallBuffer.cfg.pmax ∧
    (shifted smallBuffer.engine.sb 3).length ≤ smallBuffer.cfg.pmax ∧ smallBuffer.cfg.emax < 3 :=
  ⟨small_live, by decide, by decide, by decide, live_of_check (by decide) (by decide), by decide,
    by decide +kernel, by decide, by decide, live_of_check (by decide) (by decide), by decide, by decide,
    by decide⟩

theorem witness_EgetReadsOrFaults :
    Live fresh ∧ 1 < fresh.engine.eb.length ∧ fresh.engine.eb.length ≤ 2 := ⟨fresh_live, by decide⟩

theorem witness_EcCodewordsCompleteACodeword :
    readyTables.exp = (Tables.reset.fill FieldParams.standard).exp ∧ (Tables.reset.fill FieldParams.standard).Ready FieldParams.standard ∧
    (254 : Nat) ≤ 254 ∧ (255 : Nat) ≤ 255 ∧ rsEc (Tables.reset.fill FieldParams.standard) [0, 0] 0 = .ok [] :=
  ⟨rfl, witness_ready_tables, by decide, by decide, by decide +kernel⟩

theorem witness_EcOfSpecialBlocks : ∃ t : Tables, t.Ready FieldParams.standard := ⟨_, witness_ready_tables⟩

theorem witness_RsencFromThePrimitives :
    Live fresh ∧ 3 ≤ fresh.cfg.npoly ∧ 254 + 1 ≤ fresh.cfg.pmax ∧ 254 ≤ fresh.cfg.emax ∧
    (shifted fresh.engine.sb 254).length ≤ fresh.cfg.pmax :=
  ⟨fresh_live, by decide, by decide, by decide, by decide +kernel⟩

theorem witness_BlockProcedureReturnsTheEcCodewords :
    Live (withActions fresh (blockActions fresh.cfg [1, 246] 2 ++ [.reset])) ∧
    2 ≤ fresh.cfg.emax ∧ ([1, 246] : ByteSeq).length ≤ fresh.cfg.smax ∧ 2 + 1 ≤ fresh.cfg.pmax ∧
    (shifted [1, 246] 2).length ≤ fresh.cfg.pmax :=
  ⟨live_of_check (by decide) (by decide), by decide, by decide, by decide, by decide⟩

theorem witness_PloadConstructsItsOperand :
    Live (withActions fresh ((pload .p3 2 [0, 1, 2]).map (issue fresh.cfg) ++ [.reset])) ∧
    ([0, 1, 2] : ByteSeq).length ≤ fresh.cfg.smax ∧ (shifted [0, 1, 2] 2).length ≤ fresh.cfg.pmax :=
  ⟨live_of_check (by decide) (by decide), by decide, by decide⟩

theorem witness_InterleaveKeepsEveryCodeword :
    ([0x10, 0x20, 0x30, 0x40, 0x50, 0x60, 0x70] : ByteSeq).length =
      (([⟨5, 3⟩, ⟨6, 4⟩] : List RsBlock).map (·.dataCodewords)).sum := by decide

/-- The table of the test is one that R127 admits. -/
theorem sampleTable_wf : sampleTable.wf := by
  intro v level
  unfold sampleTable
  split <;> decide

theorem witness_WholeEncodeGivesTheCodewordStream :
    Live (withActions fresh (encodeActions fresh.cfg sampleTable ⟨1, by decide⟩ .h sampleBuffer ++ [.reset])) ∧
    sampleTable.wf ∧ sampleBuffer.length = totalDataCodewords (sampleTable ⟨1, by decide⟩ .h) ∧
    ∀ b ∈ sampleTable ⟨1, by decide⟩ .h, b.ecLen ≤ 254 ∧ b.ecLen ≤ fresh.cfg.emax ∧
      b.ecLen + 1 ≤ fresh.cfg.pmax ∧ b.dataCodewords ≤ fresh.cfg.smax ∧
      b.dataCodewords + b.ecLen ≤ fresh.cfg.pmax :=
  ⟨live_of_check (by decide) (by decide), sampleTable_wf, by decide, by decide⟩

end Sys2Proof.Tests
end

section
/-! The field without its tables (R12, R21): doubling, the powers of ALPHA and the product. -/

namespace Sys2Proof.Machine

/-! ### Doubling -/

theorem timesAlpha_xor (a b : Byte) : timesAlpha (a ^^^ b) = timesAlpha a ^^^ timesAlpha b := by
  unfold timesAlpha
  rw [BitVec.msb_xor, BitVec.shiftLeft_xor_distrib]
  generalize a <<< 1 = x, b <<< 1 = y
  cases a.msb <;> cases b.msb
  · rfl
  · exact BitVec.xor_assoc x y 0x1D
  · show x ^^^ y ^^^ 0x1D = x ^^^ 0x1D ^^^ y
    ac_rfl
  · have hcancel : x ^^^ 0x1D ^^^ (y ^^^ 0x1D) = x ^^^ y ^^^ (0x1D ^^^ 0x1D) := by ac_rfl
    exact (hcancel.trans (BitVec.xor_zero)).symm

theorem eq_zero_of_timesAlpha {a : Byte} : timesAlpha a = 0 → a = 0 := by revert a; decide

theorem timesAlpha_injective : Function.Injective timesAlpha := fun a b h => by
  have hxor : timesAlpha (a ^^^ b) = 0 := by rw [timesAlpha_xor, h, BitVec.xor_self]; rfl
  exact BitVec.xor_eq_zero_iff.mp (eq_zero_of_timesAlpha hxor)

/-- R23's doubling of a number below 256 is `timesAlpha` on its byte. -/
theorem nextPower_standard (b : Byte) : nextPower .standard b.toNat = (timesAlpha b).toNat := by
  have h : ∀ b : Byte, double 0x11D b.toNat = (timesAlpha b).toNat := by decide
  exact (nextPower_two 0x11D b.toNat).trans (h b)

/-! ### Repeated doubling -/

theorem timesPower_add (a : Byte) (i j : Nat) : timesPower a (i + j) = timesPower (timesPower a i) j := by
  induction j with
  | zero => rfl
  | succ j ih => exact congrArg timesAlpha ih

theorem timesPower_timesAlpha (a : Byte) (k : Nat) : timesPower (timesAlpha a) k = timesAlpha (timesPower a k) := by
  have h : timesPower a (1 + k) = timesPower a (k + 1) := congrArg _ (Nat.add_comm 1 k)
  rwa [timesPower_add] at h

theorem timesPower_injective (k : Nat) : Function.Injective (timesPower · k) := by
  induction k with
  | zero => exact Function.injective_id
  | succ k ih => exact timesAlpha_injective.comp ih

/-! ### The powers of ALPHA -/

theorem alphaPow_add (i j : Nat) : alphaPow (i + j) = timesPower (alphaPow i) j := timesPower_add 1 i j

theorem alphaPow_ne_zero (k : Nat) : alphaPow k ≠ 0 := by
  induction k with
  | zero => decide
  | succ k ih => exact fun h => ih (eq_zero_of_timesAlpha h)

theorem alphaPow_periodic : Function.Periodic alphaPow 255 := fun k => by
  have h255 : alphaPow 255 = 1 := by decide +kernel
  rw [Nat.add_comm, alphaPow_add, h255]; rfl

theorem alphaPow_mod (k : Nat) : alphaPow (k % 255) = alphaPow k := alphaPow_periodic.map_mod_nat k

/-- The order of ALPHA is not below 255. -/
theorem alphaPow_ne_one {k : Nat} (h0 : 0 < k) (h : k < 255) : alphaPow k ≠ 1 := by
  have hall : ∀ k < 255, 0 < k → alphaPow k ≠ 1 := by decide +kernel
  exact hall k h h0

theorem alphaPow_injOn : Set.InjOn alphaPow (Set.Iio 255) := by
  have hlt : ∀ i j : Nat, i < j → j < 255 → alphaPow i ≠ alphaPow j := fun i j hij hj h => by
    have hsplit : alphaPow j = timesPower (alphaPow (j - i)) i := by
      rw [← alphaPow_add, Nat.sub_add_cancel hij.le]
    exact alphaPow_ne_one (Nat.sub_pos_of_lt hij) (by omega) (timesPower_injective i (h.trans hsplit)).symm
  intro i hi j hj h
  rcases Nat.lt_trichotomy i j with hij | hij | hij
  · exact absurd h (hlt i j hij hj)
  · exact hij
  · exact absurd h.symm (hlt j i hij hi)

/-- ALPHA generates the field: 255 different powers fill the 255 non-zero bytes. -/
theorem exists_alphaPow_eq {a : Byte} (ha : a ≠ 0) : ∃ i < 255, alphaPow i = a := by
  have hsub : (Finset.range 255).image alphaPow ⊆ Finset.univ.erase 0 := fun x hx => by
    obtain ⟨k, -, rfl⟩ := Finset.mem_image.mp hx
    exact Finset.mem_erase.mpr ⟨alphaPow_ne_zero k, Finset.mem_univ _⟩
  have hcard : ((Finset.range 255).image alphaPow).card = 255 := by
    rw [Finset.card_image_of_injOn (by simpa using alphaPow_injOn), Finset.card_range]
  have hbytes : Fintype.card Byte = 256 := by
    simpa using Fintype.card_congr (BitVec.equivFin (m := 8)).toEquiv
  have heq : (Finset.range 255).image alphaPow = Finset.univ.erase 0 :=
    Finset.eq_of_subset_of_card_le hsub (by simp [hcard, hbytes])
  have hmem : a ∈ (Finset.range 255).image alphaPow := heq ▸ Finset.mem_erase.mpr ⟨ha, Finset.mem_univ a⟩
  simpa using hmem

/-! ### The product -/

theorem fieldMul_timesAlpha_left (a b : Byte) : fieldMul (timesAlpha a) b = timesAlpha (fieldMul a b) := by
  unfold fieldMul
  refine List.foldr_hom timesAlpha (init := 0) fun k acc => ?_
  rw [timesAlpha_xor, timesPower_timesAlpha, apply_ite timesAlpha]; rfl

/-- The product with a power of ALPHA is repeated doubling: what ties `fieldMul` to exponents. -/
theorem fieldMul_alphaPow_left (i : Nat) (b : Byte) : fieldMul (alphaPow i) b = timesPower b i := by
  induction i with
  | zero =>
    have hone : ∀ b : Byte, fieldMul 1 b = b := by decide +kernel
    exact hone b
  | succ i ih => rw [timesPower, ← ih]; exact fieldMul_timesAlpha_left (alphaPow i) b

theorem fieldMul_alphaPow (i j : Nat) : fieldMul (alphaPow i) (alphaPow j) = alphaPow (i + j) := by
  rw [fieldMul_alphaPow_left, Nat.add_comm, alphaPow_add]

theorem fieldMul_one (a : Byte) : fieldMul a 1 = a := by
  simp [fieldMul, List.range_succ, timesPower]

section
variable {a b : Byte} (ha : a ≠ 0) (hb : b ≠ 0)
include ha hb

theorem fieldMul_ne_zero : fieldMul a b ≠ 0 := by
  obtain ⟨i, -, rfl⟩ := exists_alphaPow_eq ha
  obtain ⟨j, -, rfl⟩ := exists_alphaPow_eq hb
  rw [fieldMul_alphaPow]; exact alphaPow_ne_zero (i + j)

theorem fieldMul_comm_of_ne_zero : fieldMul a b = fieldMul b a := by
  obtain ⟨i, -, rfl⟩ := exists_alphaPow_eq ha
  obtain ⟨j, -, rfl⟩ := exists_alphaPow_eq hb
  rw [fieldMul_alphaPow, fieldMul_alphaPow, Nat.add_comm]

theorem fieldMul_assoc_of_ne_zero {c : Byte} (hc : c ≠ 0) :
    fieldMul (fieldMul a b) c = fieldMul a (fieldMul b c) := by
  obtain ⟨i, -, rfl⟩ := exists_alphaPow_eq ha
  obtain ⟨j, -, rfl⟩ := exists_alphaPow_eq hb
  obtain ⟨k, -, rfl⟩ := exists_alphaPow_eq hc
  simp only [fieldMul_alphaPow, Nat.add_assoc]

end

end Sys2Proof.Machine
end

section
/-! What ready tables hold (R21 to R23), and the scalar functions over them (R76, R77, R79). -/

namespace Sys2Proof.Machine

/-! ### The contents of the tables -/

theorem powers_standard (k : Nat) (b : Byte) :
    powers .standard k b.toNat = (List.range k).map (timesPower b) := by
  induction k generalizing b with
  | zero => rfl
  | succ k ih =>
    rw [powers, nextPower_standard, ih, List.range_succ_eq_map, List.map_cons, List.map_map, BitVec.ofNat_toNat,
      BitVec.setWidth_eq]
    exact congrArg _ (List.map_congr_left fun j _ => timesPower_timesAlpha b j)

/-- R23's first loop lists the powers of ALPHA. -/
theorem powers_one (k : Nat) : powers .standard k 1 = (List.range k).map alphaPow := powers_standard k 1

/-- R23's second loop: the entry that a list of different values names holds the value's index. -/
theorem fillLog_getElem? {log : Vector Byte tableSize} {i : Nat} {xs : ByteSeq} (hnd : xs.Nodup) {k : Nat}
    (hk : k < xs.length) : (fillLog log i xs)[xs[k].toNat]? = some (BitVec.ofNat 8 (i + k)) := by
  induction xs generalizing log i k with
  | nil => simp at hk
  | cons x xs ih =>
    obtain ⟨hx, hnd⟩ := List.nodup_cons.mp hnd
    cases k with
    | zero =>
      have hfresh : ∀ y ∈ xs, y.toNat ≠ x.toNat := fun y hy h => hx (BitVec.eq_of_toNat_eq h ▸ hy)
      rw [List.getElem_cons_zero, fillLog, fillLog_of_notMem hfresh, Vector.getElem?_setIfInBounds]
      simp [x.isLt]
    | succ k =>
      have hlen : k < xs.length := Nat.lt_of_succ_lt_succ hk
      rw [List.getElem_cons_succ, fillLog, ih hnd hlen, Nat.add_right_comm, Nat.add_assoc]

theorem getD_of_getElem? {n i : Nat} {v : Vector Byte n} {x : Byte} (h : v[i]? = some x) : v.getD i 0 = x := by
  rw [← Vector.getElem?_toArray] at h
  rw [Vector.getD, Array.getD_eq_getD_getElem?, h, Option.getD_some]

section
variable {t : Tables} (ht : t.Ready .standard)
include ht

/-- R21: `EXP[i] = ALPHA^i`. -/
theorem Tables.Ready.exp_getD {i : Nat} (hi : i ≤ 255) : t.exp.getD i 0 = alphaPow i := by
  have h : (expTable .standard)[i]? = some (alphaPow i) := by
    simp [expTable, powers_one, Nat.lt_succ_of_le hi]
  rw [ht.exp_eq, getD_of_getElem? h]

/-- R22: `LOG` is the inverse of `EXP`. -/
theorem Tables.Ready.log_alphaPow {i : Nat} (hi : i < 255) :
    (t.log.getD (alphaPow i).toNat 0).toNat = i := by
  have hnd : (powers .standard 255 1).Nodup := by
    rw [powers_one]
    exact List.nodup_range.map_on fun x hx y hy h =>
      alphaPow_injOn (List.mem_range.mp hx) (List.mem_range.mp hy) h
  have hlen : i < (powers .standard 255 1).length := by rwa [powers_length]
  have hval : (powers .standard 255 1)[i] = alphaPow i := by simp [powers_one]
  have hentry := fillLog_getElem? (log := t.log) (i := 0) hnd hlen
  rw [hval, ht.log_eq] at hentry
  rw [getD_of_getElem? hentry, BitVec.toNat_ofNat]
  omega

end

/-! ### Normalisation (R77) -/

theorem addLoop_spec {k : Nat} {n : Int} (h : -n ≤ k) :
    0 ≤ addLoop k n ∧ addLoop k n ≤ max n 254 ∧ addLoop k n % 255 = n % 255 := by
  induction k generalizing n with
  | zero => exact ⟨by simpa [addLoop] using h, le_max_left _ _, rfl⟩
  | succ k ih =>
    rw [addLoop]
    split
    · obtain ⟨hnonneg, hle, hmod⟩ := ih (n := n + 255) (by omega)
      exact ⟨hnonneg, by omega, by omega⟩
    · exact ⟨by omega, le_max_left _ _, rfl⟩

theorem subLoop_spec {k : Nat} {n : Int} (h0 : 0 ≤ n) (h : n ≤ k + 255) :
    0 ≤ subLoop k n ∧ subLoop k n ≤ 255 ∧ subLoop k n % 255 = n % 255 := by
  induction k generalizing n with
  | zero => exact ⟨h0, by simpa [subLoop] using h, rfl⟩
  | succ k ih =>
    rw [subLoop]
    split
    · obtain ⟨hnonneg, hle, hmod⟩ := ih (n := n - 255) (by omega) (by omega)
      exact ⟨hnonneg, hle, by omega⟩
    · exact ⟨h0, by omega, rfl⟩

/-- R77: the loops end inside the table, at a number that differs from `n` by a multiple of 255. -/
theorem normalise_spec (n : Int) : 0 ≤ normalise n ∧ normalise n ≤ 255 ∧ normalise n % 255 = n % 255 := by
  obtain ⟨hnonneg, hle, hmod⟩ := addLoop_spec (k := n.natAbs) (n := n) (by omega)
  obtain ⟨hnonneg', hle', hmod'⟩ := subLoop_spec (k := n.natAbs) hnonneg (by omega)
  exact ⟨hnonneg', hle', hmod'.trans hmod⟩

/-! ### The scalar functions -/

section
variable {t : Tables} (ht : t.Ready .standard)
include ht

/-- R78: `gexp(n)` is `ALPHA^(n mod 255)`. -/
theorem gexp_of_ready (n : Int) : gexp t n = alphaPow (n % 255).toNat := by
  obtain ⟨hnonneg, hle, hmod⟩ := normalise_spec n
  have hnat : (normalise n).toNat % 255 = (n % 255).toNat := by omega
  rw [gexp, ht.exp_getD (by omega), ← alphaPow_mod, hnat]

theorem gexp_natCast (k : Nat) : gexp t k = alphaPow k := by
  have hnat : ((k : Int) % 255).toNat = k % 255 := by omega
  rw [gexp_of_ready ht, hnat, alphaPow_mod]

theorem glog_alphaPow {i : Nat} (hi : i < 255) : glog t (alphaPow i).toNat = .ok i := by
  have hpos : (alphaPow i).toNat ≠ 0 := fun h => alphaPow_ne_zero i (BitVec.eq_of_toNat_eq h)
  have hlt := (alphaPow i).isLt
  rw [glog_of_in (by omega) (by omega), Int.toNat_natCast, ht.log_alphaPow hi]

/-- R79: on non-zero elements the sum of the logarithms gives the field product. -/
theorem gmul_of_ne_zero {a b : Byte} (ha : a ≠ 0) (hb : b ≠ 0) : gmul t a b = .ok (fieldMul a b) := by
  obtain ⟨i, hi, rfl⟩ := exists_alphaPow_eq ha
  obtain ⟨j, hj, rfl⟩ := exists_alphaPow_eq hb
  rw [gmul, glog_alphaPow ht hi, ok_bind, glog_alphaPow ht hj, ok_bind, ← Nat.cast_add, gexp_natCast ht,
    fieldMul_alphaPow]
  rfl

end

/-- R79: a zero second factor fails with the same fault as a zero first one. -/
theorem gmul_zero_right (t : Tables) (a : Byte) : gmul t a 0 = .error (Raise.domain 0) := by
  by_cases ha : a = 0
  · rw [ha]; exact gmul_zero_left t 0
  · have hpos : a.toNat ≠ 0 := fun h => ha (BitVec.eq_of_toNat_eq h)
    have hlt := a.isLt
    have hzero : glog t (0 : Byte).toNat = .error (Raise.domain 0) := glog_of_out (.inl (by decide))
    rw [gmul, glog_of_in (by omega) (by omega), ok_bind, hzero, error_bind]

end Sys2Proof.Machine
end

section
/-! The statements of the scope of the model (00_scope.md) and of the field product. -/

namespace Sys2Proof.Machine

/-- Settles O33: logarithms of both factors, their sum, and the power of ALPHA. -/
theorem gmulIsTheFieldProduct : Obligations.GmulIsTheFieldProduct := by
  intro t ht a b
  refine ⟨?_, fun ha hb => ⟨gmul_of_ne_zero ht ha hb, fieldMul_ne_zero ha hb, fieldMul_comm_of_ne_zero ha hb,
    fieldMul_one a, fun c hc => fieldMul_assoc_of_ne_zero ha hb hc⟩⟩
  rintro (rfl | rfl)
  · exact gmul_zero_left t b
  · exact gmul_zero_right t a

/-- Settles O27: R60's prologue rejects the command before its rule runs (log entry 24). -/
theorem absentRegisterIsIllegalCommand : Obligations.AbsentRegisterIsIllegalCommand := by
  refine ⟨fun s i hs ha => ?_, fun s i _ h4 => Config.admits_of_four h4 i, fun s r hs hr => hs.absent r hr⟩
  rw [exec_eq_command, command_of_absent hs.2 ha, Engine.enterFault_of_live hs]
  rfl

/-- Settles O8: with no action pending the host's step is the identity. -/
theorem noHostActionNoChange : Obligations.NoHostActionNoChange := by
  intro s hs
  rw [step, hostStep, hs]

end Sys2Proof.Machine
end

section
/-! What the shared parts of a command do to the state: the prologue, fault entry, the rules' bodies, and
from them a command as a whole (R20, R24, R60, R140). -/

namespace Sys2Proof

/-- The register that a command writes (R20, R28). -/
def Instr.dest : Instr → Option PReg
  | .pnew rd _ => some rd
  | .pmul rd _ _ => some rd
  | .pmod rd _ _ => some rd
  | .genp rd _ => some rd
  | _ => none

end Sys2Proof

namespace Sys2Proof.Machine

/-! ### Status words -/

theorem statusReady_mem : ∀ st ∈ legalStatus, statusReady st ∈ legalStatus := by
  simp [legalStatus, statusReady]

theorem statusFault_mem (c : Cause) : ∀ st ∈ legalStatus, statusFault st c ∈ legalStatus := by
  cases c <;> simp [legalStatus, statusFault, Cause.code]

theorem statusReady_or_bit0 (st : Word) : statusReady st ||| 0x1 = st ||| 0x1 := by
  rw [statusReady, BitVec.or_assoc, BitVec.or_self]

/-- Table initialisation leaves every bit that neither `TRDY`, `FAULT` nor `FCAUSE` has. -/
theorem statusReady_other_bits (st : Word) : statusReady st &&& 0xFFFFFF0C = st &&& 0xFFFFFF0C := by
  have hbit : (0x1 : Word) &&& 0xFFFFFF0C = 0 := by decide
  rw [statusReady, BitVec.and_or_distrib_right, hbit]
  simp

/-- Fault entry leaves every bit that neither `TRDY`, `FAULT` nor `FCAUSE` has. -/
theorem statusFault_other_bits (st : Word) (c : Cause) :
    statusFault st c &&& 0xFFFFFF0C = st &&& 0xFFFFFF0C := by
  cases c <;> simp [statusFault, Cause.code, BitVec.and_or_distrib_right, BitVec.and_assoc]

/-! ### The prologue -/

theorem mem_tableUsers_iff (i : Instr) :
    i.mnemonic ∈ [Mnemonic.glog, .gexp, .pmul, .pmod, .genp, .rsenc] ↔ usesTables i = true := by
  cases i <;> simp [Instr.mnemonic, usesTables]

/-- R60 step 4 either does nothing, or it fills tables that were not ready. -/
theorem Engine.prologue_cases (fp : FieldParams) (i : Instr) (e : Engine) :
    (e.prologue fp i = e ∧ (usesTables i = true → e.trdy = true)) ∨
    (usesTables i = true ∧ e.trdy = false ∧
      e.prologue fp i = { e with tables := e.tables.fill fp, status := statusReady e.status }) := by
  cases hu : usesTables i with
  | false => exact .inl ⟨Engine.prologue_of_not_uses hu, nofun⟩
  | true =>
    rw [Engine.prologue_of_uses hu]
    cases ht : e.trdy with
    | true => exact .inl ⟨Engine.tablesInit_of_ready ht, fun _ => rfl⟩
    | false => exact .inr ⟨rfl, rfl, Engine.tablesInit_of_not_ready ht⟩

theorem Engine.prologue_trdy_of_uses {fp : FieldParams} {i : Instr} {e : Engine} (h : usesTables i = true) :
    (e.prologue fp i).trdy = true := by
  rw [Engine.prologue_of_uses h, Engine.tablesInit_trdy]

theorem Engine.prologue_of_trdy {fp : FieldParams} {i : Instr} {e : Engine} (h : e.trdy = true) :
    e.prologue fp i = e := by
  rcases Engine.prologue_cases fp i e with ⟨he, -⟩ | ⟨-, ht, -⟩
  · exact he
  · rw [h] at ht; cases ht

/-! ### Numbers in `RES` and length tests -/

theorem wordOfNat_toNat_le {n k : Nat} (h : n ≤ k) : (wordOfNat n).toNat ≤ k := by
  rw [wordOfNat, BitVec.toNat_ofNat]
  exact (Nat.mod_le _ _).trans h

theorem wordOfByte_toNat_le (b : Byte) : (wordOfByte b).toNat ≤ 255 := by
  rw [wordOfByte, BitVec.toNat_setWidth]
  exact (Nat.mod_le _ _).trans (Nat.le_of_lt_succ b.isLt)

/-- R76: a logarithm is a byte of the table. -/
theorem glog_toNat_le {t : Tables} {n v : Int} (h : glog t n = .ok v) : v.toNat ≤ 255 := by
  by_cases hout : n < 1 ∨ 255 < n
  · rw [glog_of_out hout] at h; cases h
  · rw [glog_of_in (by omega) (by omega)] at h
    cases h
    exact Nat.le_of_lt_succ (t.log.getD n.toNat 0).isLt

theorem le_of_checkLength {len cap : Nat} (h : checkLength len cap = .ok ()) : len ≤ cap := by
  by_contra hgt
  rw [checkLength_of_gt (Nat.lt_of_not_le hgt)] at h
  cases h

/-! ### What the body of a rule can write -/

/-- The commands listed for `RES` (R20). -/
def resWriters : List Mnemonic := [.glog, .gexp, .plen, .pget, .elen, .eget]

/-- All that the body of a completing rule can have done: one item is written, with a value in its
bounds where the engine before was in its own. -/
inductive RuleEffect (c : Config) (e : Engine) (i : Instr) : Engine → Prop where
  | result (w : Word) : i.mnemonic ∈ resWriters →
      (w.toNat ≤ 255 ∨ (∃ r, w = wordOfNat (e.p.read r).length) ∨ w = wordOfNat e.eb.length) →
      RuleEffect c e i (e.setRes w)
  | staging (v : ByteSeq) : i.mnemonic ∈ [Mnemonic.sclr, .spush] →
      (e.sb.length ≤ c.smax → v.length ≤ c.smax) → RuleEffect c e i (e.setSb v)
  | ecBuffer (n : Nat) (v : ByteSeq) : i = .rsenc n → n ≤ c.emax → rsEc e.tables e.sb n = .ok v →
      RuleEffect c e i (e.setEb v)
  | register (rd : PReg) (v : ByteSeq) : i.dest = some rd →
      ((∀ r, IsPoly (e.p.read r) ∧ (e.p.read r).length ≤ c.pmax) → IsPoly v ∧ v.length ≤ c.pmax) →
      RuleEffect c e i (e.setPoly rd v)

theorem polyMul_eq_nil_or {t : Tables} {a b p : ByteSeq} (h : polyMul t a b = .ok p) :
    p = [] ∨ (0 < a.length ∧ 0 < b.length) := by
  unfold polyMul at h
  split at h
  · cases h; exact .inl rfl
  · exact .inr (by omega)

/-- The length test of R102 lets only products through that fit. -/
theorem polyMul_length_of_checkProduct {t : Tables} {a b p : ByteSeq} {cap : Nat}
    (hc : checkProduct a b cap = .ok ()) (h : polyMul t a b = .ok p) : p.length ≤ cap := by
  rcases polyMul_eq_nil_or h with rfl | hpos
  · exact Nat.zero_le _
  · rw [checkProduct, if_pos hpos] at hc
    exact (polyMul_length_le h).trans (le_of_checkLength hc)

/-- What the body of each rule can have done when it completes. -/
theorem ruleOf_effect {c : Config} {e e' : Engine} {i : Instr} (h : ruleOf i c e = .ok e') :
    RuleEffect c e i e' := by
  cases i with
  | glog n =>
    obtain ⟨v, hv, h⟩ := bind_eq_ok h
    cases h
    exact .result _ (by simp [resWriters, Instr.mnemonic]) (.inl (wordOfNat_toNat_le (glog_toNat_le hv)))
  | gexp n => cases h; exact .result _ (by simp [resWriters, Instr.mnemonic]) (.inl (wordOfByte_toNat_le _))
  | sclr => cases h; exact .staging [] (by decide) fun _ => Nat.zero_le _
  | spush b =>
    simp only [ruleOf, ruleSpush] at h
    split at h
    · cases h
    · cases h
      refine .staging _ (by simp [Instr.mnemonic]) fun hle => ?_
      rw [List.length_append, List.length_singleton]
      omega
  | pnew rd k =>
    obtain ⟨⟨⟩, hlen, h⟩ := bind_eq_ok h
    cases h
    exact .register rd _ rfl fun _ => ⟨isPoly_construct _ _, le_of_checkLength hlen⟩
  | plen ra => cases h; exact .result _ (by simp [resWriters, Instr.mnemonic]) (.inr (.inl ⟨ra, rfl⟩))
  | pget ra k =>
    obtain ⟨b, -, h⟩ := bind_eq_ok h
    cases h
    exact .result _ (by simp [resWriters, Instr.mnemonic]) (.inl (wordOfByte_toNat_le b))
  | pmul rd ra rb =>
    obtain ⟨⟨⟩, hlen, h⟩ := bind_eq_ok h
    obtain ⟨p, hp, h⟩ := bind_eq_ok h
    cases h
    exact .register rd p rfl fun _ => ⟨polyMul_isPoly hp, polyMul_length_of_checkProduct hlen hp⟩
  | pmod rd ra rb =>
    obtain ⟨r, hr, h⟩ := bind_eq_ok h
    cases h
    refine .register rd r rfl fun hbefore => ?_
    obtain ⟨hpoly, hle⟩ := hbefore ra
    obtain ⟨hpoly', hle'⟩ := polyMod_shape hpoly hr
    exact ⟨hpoly', hle'.trans hle⟩
  | genp rd n =>
    obtain ⟨⟨⟩, hlen, h⟩ := bind_eq_ok h
    obtain ⟨g, hg, h⟩ := bind_eq_ok h
    cases h
    obtain ⟨hpoly, hle⟩ := genpoly_shape hg
    exact .register rd g rfl fun _ => ⟨hpoly, hle.trans (le_of_checkLength hlen)⟩
  | rsenc n =>
    obtain ⟨⟨⟩, -, h⟩ := bind_eq_ok h
    obtain ⟨⟨⟩, -, h⟩ := bind_eq_ok h
    obtain ⟨⟨⟩, hlen, h⟩ := bind_eq_ok h
    obtain ⟨ec, hec, h⟩ := bind_eq_ok h
    cases h
    exact .ecBuffer n ec rfl (le_of_checkLength hlen) hec
  | elen => cases h; exact .result _ (by simp [resWriters, Instr.mnemonic]) (.inr (.inr rfl))
  | eget k =>
    obtain ⟨b, -, h⟩ := bind_eq_ok h
    cases h
    exact .result _ (by simp [resWriters, Instr.mnemonic]) (.inl (wordOfByte_toNat_le b))

section
variable {c : Config} {e e' : Engine} {i : Instr} (h : RuleEffect c e i e')
include h

/-- No rule's body writes the tables, `STATUS` or the fault record. -/
theorem RuleEffect.control_frame :
    e'.tables = e.tables ∧ e'.status = e.status ∧ e'.finfo = e.finfo ∧ e'.farg = e.farg := by
  cases h <;> exact ⟨rfl, rfl, rfl, rfl⟩

theorem RuleEffect.res_eq (hi : i.mnemonic ∉ resWriters) : e'.res = e.res := by
  cases h with
  | result w hw => exact absurd hw hi
  | staging => rfl
  | ecBuffer => rfl
  | register => rfl

theorem RuleEffect.sb_eq (hi : i.mnemonic ∉ [Mnemonic.sclr, .spush]) : e'.sb = e.sb := by
  cases h with
  | result => rfl
  | staging v hv => exact absurd hv hi
  | ecBuffer => rfl
  | register => rfl

theorem RuleEffect.eb_eq (hi : i.mnemonic ≠ .rsenc) : e'.eb = e.eb := by
  cases h with
  | result => rfl
  | staging => rfl
  | ecBuffer n v hn => exact absurd (hn ▸ rfl) hi
  | register => rfl

/-- R28: a register that is not the destination keeps what it held. -/
theorem RuleEffect.read_eq {r : PReg} (hr : i.dest ≠ some r) : e'.p.read r = e.p.read r := by
  cases h with
  | result => rfl
  | staging => rfl
  | ecBuffer => rfl
  | register rd v hrd => exact PolyRegs.read_write_other e.p v fun he => hr (he ▸ hrd)

end

end Sys2Proof.Machine
end

section
/-! Products and remainders over the field without the tables, and what `poly_mul` and `poly_mod` compute
over ready tables (R101, R105). -/

namespace Sys2Proof.Machine

/-! ### XOR of a sequence into the front of another -/

theorem xorFront_xorFront {row out : ByteSeq} (h : row.length ≤ out.length) :
    xorFront row (xorFront row out) = out := by
  induction row generalizing out with
  | nil => rfl
  | cons r row ih =>
    cases out with
    | nil => cases h
    | cons o out =>
      simp only [xorFront, ih (Nat.le_of_succ_le_succ h), BitVec.xor_assoc, BitVec.xor_self, BitVec.xor_zero]

theorem xorFront_xorSeq (row a b : ByteSeq) : xorFront row (xorSeq a b) = xorSeq (xorFront row a) b := by
  induction row generalizing a b with
  | nil => rfl
  | cons r row ih =>
    cases a with
    | nil => rfl
    | cons x a =>
      cases b with
      | nil => rfl
      | cons y b =>
        have hxor : x ^^^ y ^^^ r = x ^^^ r ^^^ y := by ac_rfl
        exact congrArg₂ List.cons hxor (ih a b)

theorem xorFront_zeros {k : Nat} {out : ByteSeq} (h : k ≤ out.length) : xorFront (zeros k) out = out := by
  induction k generalizing out with
  | zero => rfl
  | succ k ih =>
    cases out with
    | nil => cases h
    | cons o out =>
      have htail : xorFront (zeros k) out = out := ih (Nat.le_of_succ_le_succ h)
      exact congrArg₂ List.cons BitVec.xor_zero htail

theorem xorSeq_zeros_left (a : ByteSeq) : xorSeq (zeros a.length) a = a := by
  induction a with
  | nil => rfl
  | cons x a ih => exact congrArg₂ List.cons BitVec.zero_xor ih

theorem getD_xorFront {row out : ByteSeq} (h : row.length ≤ out.length) (k : Nat) :
    (xorFront row out).getD k 0 = row.getD k 0 ^^^ out.getD k 0 := by
  induction row generalizing out k with
  | nil => simp [xorFront]
  | cons r row ih =>
    cases out with
    | nil => cases h
    | cons o out =>
      cases k with
      | zero => exact BitVec.xor_comm o r
      | succ k => exact ih (Nat.le_of_succ_le_succ h) k

/-! ### Right alignment -/

theorem rightAlign_self (a : ByteSeq) : rightAlign a.length a = a := by simp [rightAlign]

theorem rightAlign_succ {n : Nat} {r : ByteSeq} (h : r.length ≤ n) :
    rightAlign (n + 1) r = 0 :: rightAlign n r := by
  rw [rightAlign, Nat.sub_add_comm h]; rfl

/-- Stripping loses leading zeros only. -/
theorem rightAlign_strip (s : ByteSeq) : rightAlign s.length (strip s) = s := by
  induction s with
  | nil => rfl
  | cons c s ih =>
    by_cases hc : c = 0#8
    · subst hc
      rw [strip_zero_cons, List.length_cons, rightAlign_succ (strip_length_le s), ih]; rfl
    · rw [strip_cons_of_ne hc, rightAlign_self]

/-! ### The product, row by row -/

theorem fieldMul_zero_left (b : Byte) : fieldMul 0 b = 0 := by
  revert b; decide +kernel

@[simp] theorem product_length (a b : ByteSeq) : (product a b).length = a.length + b.length - 1 := by
  simp [product]

theorem product_nil_left (b : ByteSeq) : product [] b = zeros (b.length - 1) := by
  have hslot : productSlot [] b = fun _ => 0 := rfl
  rw [product, hslot, List.map_const', List.length_range, List.length_nil, Nat.zero_add]
  rfl

theorem getD_product (a b : ByteSeq) {k : Nat} (h : k < a.length + b.length - 1) :
    (product a b).getD k 0 = productSlot a b k := by
  simp [product, List.getD_eq_getElem?_getD, h]

/-- Slot `k` of the row of the first factor's leading coefficient `x`. -/
theorem getD_row (x : Byte) (b : ByteSeq) (k : Nat) :
    (b.map (fieldMul x)).getD k 0 = if k < b.length then fieldMul x (b.getD k 0) else 0 := by
  by_cases hk : k < b.length <;> simp [List.getD_eq_getElem?_getD, hk]

theorem productSlot_cons_zero (x : Byte) (a b : ByteSeq) :
    productSlot (x :: a) b 0 = (b.map (fieldMul x)).getD 0 0 := by
  rw [getD_row]
  simp [productSlot, List.range_succ_eq_map, List.foldr_map]

theorem productSlot_cons_succ (x : Byte) (a b : ByteSeq) (k : Nat) :
    productSlot (x :: a) b (k + 1) = (b.map (fieldMul x)).getD (k + 1) 0 ^^^ productSlot a b k := by
  rw [getD_row]
  simp [productSlot, List.range_succ_eq_map, List.foldr_map]

/-- R101: the leading coefficient gives the first row, the others lie one slot further down. -/
theorem product_cons {b : ByteSeq} (hb : b ≠ []) (x : Byte) (a : ByteSeq) :
    product (x :: a) b = xorFront (b.map (fieldMul x)) (0 :: product a b) := by
  have hpos := List.length_pos_of_ne_nil hb
  have hrow : (b.map (fieldMul x)).length ≤ (0 :: product a b).length := by
    rw [List.length_map, List.length_cons, product_length]; omega
  have hlen : (product (x :: a) b).length = (0 :: product a b).length := by
    rw [List.length_cons, product_length, product_length, List.length_cons]; omega
  refine List.ext_getElem (by rw [hlen, xorFront_length hrow]) fun k hk hk' => ?_
  rw [product_length, List.length_cons] at hk
  rw [← List.getD_eq_getElem (d := 0), ← List.getD_eq_getElem (d := 0), getD_product _ _ hk, getD_xorFront hrow]
  cases k with
  | zero => rw [productSlot_cons_zero, List.getD_cons_zero]; exact BitVec.xor_zero.symm
  | succ k => rw [productSlot_cons_succ, List.getD_cons_succ, getD_product _ _ (by omega)]

theorem product_zero_cons {b : ByteSeq} (hb : b ≠ []) (a : ByteSeq) : product (0 :: a) b = 0 :: product a b := by
  have hrow : b.map (fieldMul 0) = zeros b.length := by
    rw [funext fieldMul_zero_left, List.map_const']; rfl
  have hpos := List.length_pos_of_ne_nil hb
  rw [product_cons hb, hrow, xorFront_zeros (by rw [List.length_cons, product_length]; omega)]

/-! ### Multiplication over ready tables -/

section
variable {t : Tables} (ht : t.Ready .standard)
include ht

theorem mulRow_of_noZero {a : Byte} {b : ByteSeq} (ha : a ≠ 0) (hb : NoZero b) :
    mulRow t a b = .ok (b.map (fieldMul a)) := by
  induction b with
  | nil => rfl
  | cons c b ih =>
    obtain ⟨hc, hb⟩ := List.forall_mem_cons.mp hb
    rw [mulRow, gmul_of_ne_zero ht ha hc, ok_bind, ih hb]; rfl

theorem mulRows_of_noZero {a b : ByteSeq} (hne : b ≠ []) (ha : NoZero a) (hb : NoZero b) :
    mulRows t a b = .ok (product a b) := by
  induction a with
  | nil => rw [mulRows, product_nil_left]
  | cons x a ih =>
    obtain ⟨hx, ha⟩ := List.forall_mem_cons.mp ha
    rw [mulRows, mulRow_of_noZero ht hx hb, ok_bind, ih ha, product_cons hne]; rfl

end

/-- The leading coefficient of a product is the product of the leading coefficients. -/
theorem isPoly_product {a b : ByteSeq} (ha : a ≠ []) (hb : b ≠ []) (hna : NoZero a) (hnb : NoZero b) :
    IsPoly (product a b) := by
  obtain ⟨x, a, rfl⟩ := List.exists_cons_of_ne_nil ha
  obtain ⟨y, b, rfl⟩ := List.exists_cons_of_ne_nil hb
  rw [product_cons hb]
  have hlead := fieldMul_ne_zero (hna x List.mem_cons_self) (hnb y List.mem_cons_self)
  exact isPoly_cons.mpr (by simpa using hlead)

theorem polyMul_of_noZero {t : Tables} (ht : t.Ready .standard) {a b : ByteSeq} (ha : a ≠ []) (hb : b ≠ [])
    (hna : NoZero a) (hnb : NoZero b) : polyMul t a b = .ok (product a b) := by
  have hpa := List.length_pos_of_ne_nil ha
  have hpb := List.length_pos_of_ne_nil hb
  have hstrip : strip (product a b) = product a b := isPoly_product ha hb hna hnb
  rw [polyMul, if_neg (by omega), mulRows_of_noZero ht hb hna hnb, ok_bind, hstrip]; rfl

theorem polyMul_of_empty (t : Tables) {a b : ByteSeq} (h : a = [] ∨ b = []) : polyMul t a b = .ok [] := by
  rw [polyMul, if_pos (by simpa using h)]

/-! ### Division over ready tables -/

section
variable {t : Tables} (ht : t.Ready .standard)
include ht

/-- R105: adding a ratio to a logarithm multiplies by its power. -/
theorem gexp_add (l : Nat) (ratio : Int) : gexp t (l + ratio) = fieldMul (gexp t ratio) (alphaPow l) := by
  have hmod : ((l + ratio) % 255).toNat = ((ratio % 255).toNat + l) % 255 := by omega
  rw [gexp_of_ready ht, gexp_of_ready ht, fieldMul_alphaPow, hmod, alphaPow_mod]

theorem scaleBy_of_noZero (ratio : Int) {d : ByteSeq} (hd : NoZero d) :
    scaleBy t ratio d = .ok (d.map (fieldMul (gexp t ratio))) := by
  induction d with
  | nil => rfl
  | cons c d ih =>
    obtain ⟨hc, hnd⟩ := List.forall_mem_cons.mp hd
    obtain ⟨l, hl, rfl⟩ := exists_alphaPow_eq hc
    rw [scaleBy, glog_alphaPow ht hl, ok_bind, ih hnd, ok_bind, gexp_add ht]; rfl

/-- R105: one pass subtracts a multiple of the divisor that cancels the leading coefficient. -/
theorem modPass_of_noZero {x y : Byte} {a d : ByteSeq} (hx : x ≠ 0) (hd : NoZero (y :: d)) :
    ∃ c, fieldMul c y = x ∧ modPass t (x :: a) (y :: d) = .ok (0 :: xorFront (d.map (fieldMul c)) a) := by
  obtain ⟨i, hi, rfl⟩ := exists_alphaPow_eq hx
  obtain ⟨j, hj, rfl⟩ := exists_alphaPow_eq (hd y List.mem_cons_self)
  have hlead : fieldMul (gexp t (i - j)) (alphaPow j) = alphaPow i := by
    rw [← gexp_add ht, add_sub_cancel, gexp_natCast ht]
  refine ⟨gexp t (i - j), hlead, ?_⟩
  rw [modPass, List.headD_cons, List.headD_cons, glog_alphaPow ht hi, ok_bind, glog_alphaPow ht hj, ok_bind,
    scaleBy_of_noZero ht _ hd, ok_bind, List.map_cons, hlead, xorFront, BitVec.xor_self]
  rfl

end

/-- A sequence is a multiple of `d` by an `m`-coefficient quotient, plus `r`. -/
def DividesTo (m : Nat) (a d r : ByteSeq) : Prop :=
  ∃ q : ByteSeq, q.length = m ∧
    rightAlign (m + d.length - 1) a = xorSeq (product q d) (rightAlign (m + d.length - 1) r)

theorem dividesTo_zero {a d : ByteSeq} (h : a.length < d.length) : DividesTo 0 a d a := by
  refine ⟨[], rfl, ?_⟩
  have hlen : (rightAlign (0 + d.length - 1) a).length = d.length - 1 := by
    rw [rightAlign_length (by omega)]; omega
  rw [product_nil_left, ← hlen, xorSeq_zeros_left]

/-- A leading zero of the quotient. -/
theorem DividesTo.zero_cons {m : Nat} {a d r : ByteSeq} (h : DividesTo m a d r) (hd : d ≠ [])
    (ha : a.length ≤ m + d.length - 1) (hr : r.length < d.length) : DividesTo (m + 1) a d r := by
  obtain ⟨q, hq, h⟩ := h
  have hpos := List.length_pos_of_ne_nil hd
  have hN : m + 1 + d.length - 1 = (m + d.length - 1) + 1 := by omega
  refine ⟨0 :: q, by rw [List.length_cons, hq], ?_⟩
  rw [hN, rightAlign_succ ha, rightAlign_succ (by omega), h, product_zero_cons hd]
  rfl

/-- One pass of division: what is left after `c` times the divisor is subtracted divides on. -/
theorem DividesTo.cons {m : Nat} {x y c : Byte} {a d r : ByteSeq} (ha : a.length = m + d.length)
    (hc : fieldMul c y = x) (h : DividesTo m (strip (xorFront (d.map (fieldMul c)) a)) (y :: d) r)
    (hr : r.length ≤ d.length) : DividesTo (m + 1) (x :: a) (y :: d) r := by
  obtain ⟨q, hq, h⟩ := h
  have hrow : (d.map (fieldMul c)).length ≤ a.length := by rw [List.length_map]; omega
  have hN : m + (y :: d).length - 1 = a.length := by rw [List.length_cons]; omega
  have hN' : m + 1 + (y :: d).length - 1 = a.length + 1 := by rw [List.length_cons]; omega
  have hself : rightAlign (a.length + 1) (x :: a) = x :: a := rightAlign_self (x :: a)
  have hleft : rightAlign a.length (strip (xorFront (d.map (fieldMul c)) a)) = xorFront (d.map (fieldMul c)) a := by
    conv_lhs => rw [← xorFront_length hrow]
    exact rightAlign_strip _
  rw [hN, hleft] at h
  refine ⟨c :: q, by rw [List.length_cons, hq], ?_⟩
  have hlead : x = (0 ^^^ fieldMul c y) ^^^ 0 := by rw [hc]; simp
  have htail : a = xorSeq (xorFront (d.map (fieldMul c)) (product q (y :: d))) (rightAlign a.length r) := by
    rw [← xorFront_xorSeq, ← h, xorFront_xorFront hrow]
  rw [hN', hself, rightAlign_succ (by omega), product_cons (List.cons_ne_nil y d)]
  exact congrArg₂ List.cons hlead htail

/-- R105's loop divides: whatever number `m` of quotient coefficients is enough for the dividend, it ends
with a remainder shorter than the divisor. -/
theorem modLoop_dividesTo {t : Tables} (ht : t.Ready .standard) {d : ByteSeq} (hd : d ≠ []) (hnd : NoZero d)
    {m k : Nat} {a : ByteSeq} (hpoly : IsPoly a) (hk : a.length ≤ k) (hm : a.length ≤ m + d.length - 1) :
    ∃ r, modLoop t d k a = .ok r ∧ r.length < d.length ∧ DividesTo m a d r := by
  have hpos := List.length_pos_of_ne_nil hd
  induction m generalizing k a with
  | zero =>
    have hshort : a.length < d.length := by omega
    refine ⟨a, ?_, hshort, dividesTo_zero hshort⟩
    cases k with
    | zero => rfl
    | succ k => rw [modLoop, if_pos hshort]
  | succ m ih =>
    by_cases hfull : a.length ≤ m + d.length - 1
    · obtain ⟨r, hloop, hr, hdiv⟩ := ih hpoly hk hfull
      exact ⟨r, hloop, hr, hdiv.zero_cons hd hfull hr⟩
    · obtain ⟨y, d, rfl⟩ := List.exists_cons_of_ne_nil hd
      rw [List.length_cons] at hm hfull
      obtain ⟨x, a, rfl⟩ := List.exists_cons_of_length_pos (l := a) (by omega)
      rw [List.length_cons] at hm hfull hk
      obtain ⟨k, rfl⟩ := Nat.exists_eq_succ_of_ne_zero (n := k) (by omega)
      obtain ⟨c, hc, hpass⟩ := modPass_of_noZero ht (a := a) (isPoly_cons.mp hpoly) hnd
      have hlen : (strip (xorFront (d.map (fieldMul c)) a)).length ≤ a.length := by
        conv_rhs => rw [← xorFront_length (row := d.map (fieldMul c)) (out := a) (by rw [List.length_map]; omega)]
        exact strip_length_le _
      obtain ⟨r, hloop, hr, hdiv⟩ := ih (k := k) (isPoly_strip (xorFront (d.map (fieldMul c)) a)) (by omega)
        (by rw [List.length_cons]; omega)
      refine ⟨r, ?_, hr, hdiv.cons (by omega) hc (Nat.le_of_lt_succ hr)⟩
      rw [modLoop, if_neg (by simp only [List.length_cons]; omega), hpass, ok_bind]
      exact (congrArg _ (strip_zero_cons _)).trans hloop

/-- R105 stops with DomainError at a zero coefficient, so a scaled divisor has none. -/
theorem noZero_of_scaleBy {t : Tables} {ratio : Int} {d row : ByteSeq} (h : scaleBy t ratio d = .ok row) :
    NoZero d := by
  induction d generalizing row with
  | nil => exact List.forall_mem_nil _
  | cons c d ih =>
    obtain ⟨l, hl, h⟩ := bind_eq_ok h
    obtain ⟨xs, hxs, -⟩ := bind_eq_ok h
    refine List.forall_mem_cons.mpr ⟨?_, ih hxs⟩
    rintro rfl
    have hzero : glog t (0 : Byte).toNat = .error (Raise.domain 0) := glog_of_out (.inl (by decide))
    exact nomatch hzero.symm.trans hl

/-- A pass that completes has seen every coefficient of the divisor. -/
theorem noZero_of_modPass {t : Tables} {a d num : ByteSeq} (h : modPass t a d = .ok num) : NoZero d := by
  obtain ⟨la, -, h⟩ := bind_eq_ok h
  obtain ⟨ld, -, h⟩ := bind_eq_ok h
  obtain ⟨row, hrow, -⟩ := bind_eq_ok h
  exact noZero_of_scaleBy hrow

/-- R106, R107: the quotient and the remainder of a dividend that is not the shorter. -/
theorem polyMod_of_noZero {t : Tables} (ht : t.Ready .standard) {a d : ByteSeq} (hpoly : IsPoly a) (hd : d ≠ [])
    (hnd : NoZero d) (hle : d.length ≤ a.length) :
    ∃ r, polyMod t a d = .ok r ∧ r.length < d.length ∧ DividesTo (a.length - d.length + 1) a d r := by
  have hpos := List.length_pos_of_ne_nil hd
  rw [polyMod, if_neg (by omega)]
  exact modLoop_dividesTo ht hd hnd hpoly (Nat.le_refl _) (by omega)

/-- R107: over ready tables the remainder is shorter than the divisor. -/
theorem polyMod_length_lt {t : Tables} (ht : t.Ready .standard) {a d r : ByteSeq} (hpoly : IsPoly a)
    (h : polyMod t a d = .ok r) : r.length < d.length := by
  by_cases hshort : a.length < d.length
  · rw [polyMod_of_short hshort] at h
    cases h
    exact hshort
  · have hd : d ≠ [] := by
      rintro rfl
      cases h
    have hnd : NoZero d := by
      obtain ⟨x, a, rfl⟩ := List.exists_cons_of_length_pos (l := a)
        (Nat.lt_of_lt_of_le (List.length_pos_of_ne_nil hd) (Nat.le_of_not_lt hshort))
      rw [polyMod, if_neg (by simpa using hd), List.length_cons, modLoop, if_neg hshort] at h
      obtain ⟨num, hpass, -⟩ := bind_eq_ok h
      exact noZero_of_modPass hpass
    obtain ⟨r', hr', hlt, -⟩ := polyMod_of_noZero ht hpoly hd hnd (Nat.le_of_not_lt hshort)
    cases hr'.symm.trans h
    exact hlt

/-- R115: `rs_ec(data, n)` has `n` bytes. -/
theorem rsEc_length {t : Tables} (ht : t.Ready .standard) {data ec : ByteSeq} {n : Nat}
    (h : rsEc t data n = .ok ec) : ec.length = n := by
  obtain ⟨g, hg, h⟩ := bind_eq_ok h
  obtain ⟨r, hr, h⟩ := bind_eq_ok h
  cases h
  have hshort := polyMod_length_lt ht (isPoly_construct data n) hr
  have hg' := (genpoly_shape hg).2
  rw [padLeft_eq_rightAlign, rightAlign_length (by omega)]

end Sys2Proof.Machine
end

section
/-! What one command and one step can do to the engine, and that both keep the invariant (R25, R93). -/

namespace Sys2Proof.Machine

/-! ### A command -/

/-- What neither the prologue, nor the rule, nor a fault changes, a command leaves as it was. -/
theorem exec_field_eq {α : Type} (f : Engine → α) {i : Instr} {s t : State} (h : exec i s = .next t)
    (hinit : f (s.engine.prologue s.cfg.field i) = f s.engine)
    (hfault : ∀ e w r, f (Engine.enterFault w r e) = f e)
    (hrule : ∀ e', RuleEffect s.cfg (s.engine.prologue s.cfg.field i) i e' →
      f e' = f (s.engine.prologue s.cfg.field i)) :
    f t.engine = f s.engine := by
  rcases exec_cases h with ⟨-, rfl⟩ | ⟨-, -, rfl⟩ | ⟨-, -, e, he, rfl⟩ | ⟨-, -, r, -, rfl⟩
  · rfl
  · exact hfault _ _ _
  · exact (hrule e (ruleOf_effect he)).trans hinit
  · exact (hfault _ _ _).trans hinit

/-- R24: a command of the engine leaves the tables and `TRDY` as its prologue did, faulting or not. -/
theorem exec_tables_of_admits {i : Instr} {s t : State} (hf : s.engine.faulted = false)
    (ha : s.cfg.admits i = true) (h : exec i s = .next t) :
    t.engine.tables = (s.engine.prologue s.cfg.field i).tables ∧
    t.engine.trdy = (s.engine.prologue s.cfg.field i).trdy := by
  rcases exec_cases h with ⟨hf', -⟩ | ⟨-, ha', -⟩ | ⟨-, -, e, he, rfl⟩ | ⟨-, -, r, -, rfl⟩
  · rw [hf] at hf'; cases hf'
  · rw [ha] at ha'; cases ha'
  · obtain ⟨htables, hstatus, -, -⟩ := (ruleOf_effect he).control_frame
    exact ⟨htables, congrArg (·.getLsbD 0) hstatus⟩
  · exact ⟨rfl, Engine.enterFault_trdy _ _ _⟩

/-- R24, R25: a command leaves the tables and `TRDY` alone, or it is a user of tables that were not
ready and fills them. -/
theorem exec_tables {i : Instr} {s t : State} (h : exec i s = .next t) :
    (t.engine.tables = s.engine.tables ∧ t.engine.trdy = s.engine.trdy) ∨
    (usesTables i = true ∧ s.engine.trdy = false ∧ t.engine.trdy = true ∧
      t.engine.tables = s.engine.tables.fill s.cfg.field) := by
  rcases exec_cases h with ⟨-, rfl⟩ | ⟨-, -, rfl⟩ | ⟨hf, ha, -⟩ | ⟨hf, ha, -⟩
  · exact .inl ⟨rfl, rfl⟩
  · exact .inl ⟨rfl, Engine.enterFault_trdy _ _ _⟩
  all_goals
    obtain ⟨htables, htrdy⟩ := exec_tables_of_admits hf ha h
    rcases Engine.prologue_cases s.cfg.field i s.engine with ⟨hsame, -⟩ | ⟨hu, hnot, hfill⟩
    · rw [hsame] at htables htrdy
      exact .inl ⟨htables, htrdy⟩
    · rw [Engine.prologue_trdy_of_uses hu] at htrdy
      rw [hfill] at htables
      exact .inr ⟨hu, hnot, htrdy, htables⟩

/-- R33, R140: a command that does not enter the fault state leaves the fault record, and of `STATUS`
all but `TRDY`. -/
theorem exec_record_of_faulted_eq {i : Instr} {s t : State} (h : exec i s = .next t)
    (hsame : t.engine.faulted = s.engine.faulted) :
    t.engine.finfo = s.engine.finfo ∧ t.engine.farg = s.engine.farg ∧
      t.engine.status ||| 0x1 = s.engine.status ||| 0x1 := by
  rcases exec_cases h with ⟨-, rfl⟩ | ⟨hf, -, rfl⟩ | ⟨-, -, e, he, rfl⟩ | ⟨hf, -, r, -, rfl⟩
  · exact ⟨rfl, rfl, rfl⟩
  · rw [Engine.enterFault_faulted, hf] at hsame; cases hsame
  · obtain ⟨-, hstatus, hfinfo, hfarg⟩ := (ruleOf_effect he).control_frame
    obtain ⟨-, -, -, -, hfinfo', hfarg'⟩ := Engine.prologue_frame s.cfg.field i s.engine
    refine ⟨hfinfo.trans hfinfo', hfarg.trans hfarg', ?_⟩
    rcases Engine.prologue_cases s.cfg.field i s.engine with ⟨hsame, -⟩ | ⟨-, -, hfill⟩
    · rw [hstatus, hsame]
    · rw [hstatus, hfill]; exact statusReady_or_bit0 s.engine.status
  · rw [Engine.enterFault_faulted, hf] at hsame; cases hsame

/-- R32: the bits of `STATUS` beside `TRDY`, `FAULT` and `FCAUSE` are written by no command. -/
theorem exec_other_bits {i : Instr} {s t : State} (h : exec i s = .next t) :
    t.engine.status &&& 0xFFFFFF0C = s.engine.status &&& 0xFFFFFF0C := by
  refine exec_field_eq (·.status &&& 0xFFFFFF0C) h ?_ (fun e _ r => statusFault_other_bits e.status r.cause)
    fun e' he => congrArg (· &&& 0xFFFFFF0C) he.control_frame.2.1
  rcases Engine.prologue_cases s.cfg.field i s.engine with ⟨hsame, -⟩ | ⟨-, -, hfill⟩
  · rw [hsame]
  · rw [hfill]; exact statusReady_other_bits s.engine.status

theorem dest_ne_of_forall {i : Instr} {r : PReg} (hnew : ∀ k, i ≠ .pnew r k) (hmul : ∀ a b, i ≠ .pmul r a b)
    (hmod : ∀ a b, i ≠ .pmod r a b) (hgen : ∀ n, i ≠ .genp r n) : i.dest ≠ some r := by
  intro h
  cases i with
  | pnew rd k => cases h; exact hnew k rfl
  | pmul rd a b => cases h; exact hmul a b rfl
  | pmod rd a b => cases h; exact hmod a b rfl
  | genp rd n => cases h; exact hgen n rfl
  | _ => cases h

/-- R31: a result is a byte or a length. -/
theorem RuleEffect.res_toNat_le {c : Config} {e e' : Engine} {i : Instr} (h : RuleEffect c e i e') {k : Nat}
    (hk : 255 ≤ k) (hp : ∀ r, (e.p.read r).length ≤ k)
    (heb : e.eb.length ≤ k) (hb : e.res.toNat ≤ k) : e'.res.toNat ≤ k := by
  cases h with
  | result w _ hw =>
    rcases hw with hbyte | ⟨r, rfl⟩ | rfl
    · exact hbyte.trans hk
    · exact wordOfNat_toNat_le (hp r)
    · exact wordOfNat_toNat_le heb
  | staging => exact hb
  | ecBuffer => exact hb
  | register => exact hb

/-- R31: with registers and `EB` no longer than `k`, neither is a result above it. -/
theorem exec_res_toNat_le {i : Instr} {s t : State} {k : Nat} (h : exec i s = .next t) (hk : 255 ≤ k)
    (hp : ∀ r, (s.engine.p.read r).length ≤ k) (heb : s.engine.eb.length ≤ k)
    (hres : s.engine.res.toNat ≤ k) : t.engine.res.toNat ≤ k := by
  obtain ⟨hp', -, heb', hres', -, -⟩ := Engine.prologue_frame s.cfg.field i s.engine
  rcases exec_cases h with ⟨-, rfl⟩ | ⟨-, -, rfl⟩ | ⟨-, -, e, he, rfl⟩ | ⟨-, -, r, -, rfl⟩
  · exact hres
  · exact hres
  · rw [← hp'] at hp
    rw [← heb'] at heb
    rw [← hres'] at hres
    exact (ruleOf_effect he).res_toNat_le hk hp heb hres
  · rw [Engine.enterFault_res, hres']; exact hres

/-! ### A step -/

/-- All that a step can do to the engine; the parameters it never changes. -/
theorem step_engine_cases {s t : State} (h : step s = .next t) : t.cfg = s.cfg ∧
    ((s.AtReset ∧ t.engine = Engine.reset) ∨
    t.engine = s.engine ∨
    (s.engine.faulted = false ∧ ∃ w, t.engine = s.engine.enterFault w Raise.illegal) ∨
    (s.engine.faulted = false ∧ ∃ i, exec i s = nextEngine s t.engine)) := by
  rcases step_cases h with ⟨-, rfl⟩ | ⟨rest, hp, rfl⟩ | ⟨_, _, _, _, _, _, rfl⟩ |
    ⟨_, _, _, _, _, _, _, _, rfl⟩ | ⟨addr, bits, w, rest, -, -, hw⟩
  · exact ⟨rfl, .inr (.inl rfl)⟩
  · exact ⟨rfl, .inl ⟨congrArg List.head? hp, rfl⟩⟩
  · exact ⟨rfl, .inr (.inl rfl)⟩
  · exact ⟨rfl, .inr (.inl rfl)⟩
  · rcases writeCmd_cases w { s with pending := rest } with ⟨-, he⟩ | ⟨hf, -, he⟩ | ⟨hf, i, -, he⟩
    · cases hw.symm.trans he
      exact ⟨rfl, .inr (.inl rfl)⟩
    · cases hw.symm.trans he
      exact ⟨rfl, .inr (.inr (.inl ⟨hf, w, rfl⟩))⟩
    · cases hw.symm.trans (he.trans (exec_next i _))
      exact ⟨rfl, .inr (.inr (.inr ⟨hf, i, exec_next i s⟩))⟩

/-! ### The invariant -/

/-- The invariant speaks of the engine and the parameters only. -/
theorem Inv.of_engine_eq {s t : State} (h : Inv s) (hcfg : t.cfg = s.cfg) (he : t.engine = s.engine) : Inv t := by
  obtain ⟨engine, cfg, pending, returned⟩ := t
  obtain rfl : engine = s.engine := he
  obtain rfl : cfg = s.cfg := hcfg
  exact ⟨h.legal, h.ready, h.poly, h.polyLength, h.absent, h.sbLength, h.ebLength, h.status, h.record⟩

theorem inv_of_engine_reset {s : State} (hlegal : LegalConfig s.cfg) (he : s.engine = Engine.reset) : Inv s := by
  obtain ⟨engine, cfg, pending, returned⟩ := s
  obtain rfl : engine = Engine.reset := he
  exact {
    legal := hlegal
    ready := fun ht => absurd (show Engine.reset.trdy = true from ht) (by decide)
    poly := fun r => by rw [Engine.reset_read]; exact isPoly_nil
    polyLength := fun r => by rw [Engine.reset_read]; exact Nat.zero_le _
    absent := fun r _ => Engine.reset_read r
    sbLength := Nat.zero_le _
    ebLength := Nat.zero_le _
    status := List.mem_cons_self
    record := fun _ => ⟨rfl, rfl⟩ }

section
variable {s : State} (h : Inv s)
include h

theorem Inv.prologue (i : Instr) : Inv { s with engine := s.engine.prologue s.cfg.field i } := by
  rcases Engine.prologue_cases s.cfg.field i s.engine with ⟨hsame, -⟩ | ⟨-, -, hfill⟩
  · exact h.of_engine_eq rfl hsame
  · rw [hfill]
    exact {
      legal := h.legal
      ready := fun _ => fill_ready _ _
      poly := h.poly
      polyLength := h.polyLength
      absent := h.absent
      sbLength := h.sbLength
      ebLength := h.ebLength
      status := statusReady_mem _ h.status
      record := fun hf => h.record ((statusReady_bit1 s.engine.status).symm.trans hf) }

theorem Inv.enterFault (w : Word) (r : Raise) : Inv { s with engine := s.engine.enterFault w r } where
  legal := h.legal
  ready := fun ht => h.ready ((Engine.enterFault_trdy s.engine w r).symm.trans ht)
  poly := h.poly
  polyLength := h.polyLength
  absent := h.absent
  sbLength := h.sbLength
  ebLength := h.ebLength
  status := statusFault_mem r.cause _ h.status
  record := fun hf => nomatch (Engine.enterFault_faulted s.engine w r).symm.trans hf

end

/-- A command of the engine writes a register that the engine has. -/
theorem has_of_dest {c : Config} {i : Instr} {r : PReg} (ha : c.admits i = true) (hd : i.dest = some r) :
    c.has r = true := by
  have hmem : r ∈ i.regs := by
    cases i <;> simp_all [Instr.dest, Instr.regs]
  exact List.all_eq_true.mp ha r hmem

section
variable {c : Config} {e e' : Engine} {i : Instr} (h : RuleEffect c e i e')
include h

theorem RuleEffect.read_bounds (hb : ∀ r, IsPoly (e.p.read r) ∧ (e.p.read r).length ≤ c.pmax) (r : PReg) :
    IsPoly (e'.p.read r) ∧ (e'.p.read r).length ≤ c.pmax := by
  cases h with
  | result => exact hb r
  | staging => exact hb r
  | ecBuffer => exact hb r
  | register rd v _ hv =>
    by_cases hr : r = rd
    · rw [hr, Engine.setPoly_p, PolyRegs.read_write_same]; exact hv hb
    · rw [Engine.setPoly_p, PolyRegs.read_write_other _ _ hr]; exact hb r

theorem RuleEffect.sb_length_le (hb : e.sb.length ≤ c.smax) : e'.sb.length ≤ c.smax := by
  cases h with
  | result => exact hb
  | staging v _ hv => exact hv hb
  | ecBuffer => exact hb
  | register => exact hb

theorem RuleEffect.eb_length_le (hready : usesTables i = true → e.tables.Ready .standard)
    (hb : e.eb.length ≤ c.emax) : e'.eb.length ≤ c.emax := by
  cases h with
  | result => exact hb
  | staging => exact hb
  | ecBuffer n v hi hn hv => exact (rsEc_length (hready (hi ▸ rfl)) hv).trans_le hn
  | register => exact hb

end

/-- The body of a rule keeps the invariant, once the tables are ready for a command that uses them. -/
theorem Inv.rule {s : State} (h : Inv s) {i : Instr} {e : Engine} (ha : s.cfg.admits i = true)
    (hu : usesTables i = true → s.engine.trdy = true) (he : RuleEffect s.cfg s.engine i e) :
    Inv { s with engine := e } := by
  obtain ⟨htables, hstatus, hfinfo, hfarg⟩ := he.control_frame
  have hbounds := he.read_bounds fun r => ⟨h.poly r, h.polyLength r⟩
  have hready : usesTables i = true → s.engine.tables.Ready .standard := fun hi => h.legal.1 ▸ h.ready (hu hi)
  exact {
    legal := h.legal
    ready := fun ht => by
      have ht' : s.engine.trdy = true := (congrArg (·.getLsbD 0) hstatus).symm.trans ht
      show e.tables.Ready s.cfg.field
      rw [htables]
      exact h.ready ht'
    poly := fun r => (hbounds r).1
    polyLength := fun r => (hbounds r).2
    absent := fun r hr => by
      have hd : i.dest ≠ some r := fun hd => nomatch hr.symm.trans (has_of_dest ha hd)
      exact (he.read_eq hd).trans (h.absent r hr)
    sbLength := he.sb_length_le h.sbLength
    ebLength := he.eb_length_le hready h.ebLength
    status := hstatus ▸ h.status
    record := fun hf => by
      have hf' : s.engine.faulted = false := (congrArg (·.getLsbD 1) hstatus).symm.trans hf
      obtain ⟨hfinfo0, hfarg0⟩ := h.record hf'
      exact ⟨hfinfo.trans hfinfo0, hfarg.trans hfarg0⟩ }

/-- R93: every command keeps the invariant, faulting or not. -/
theorem Inv.exec {s t : State} (h : Inv s) {i : Instr} (hexec : exec i s = .next t) : Inv t := by
  rcases exec_cases hexec with ⟨-, rfl⟩ | ⟨-, -, rfl⟩ | ⟨-, ha, e, he, rfl⟩ | ⟨-, -, r, -, rfl⟩
  · exact h
  · exact h.enterFault _ _
  · exact (h.prologue i).rule ha Engine.prologue_trdy_of_uses (ruleOf_effect he)
  · exact (h.prologue i).enterFault _ _

end Sys2Proof.Machine
end

section
/-! The rules read the tables through `glog` and `gexp` only, so contents that neither can read do not
show (R22, R25, R156). -/

namespace Sys2Proof.Machine

/-- Two pairs of tables with the same entries but for `LOG[0]`. -/
structure SameEntries (t u : Tables) : Prop where
  exp : t.exp = u.exp
  log : ∀ v, 1 ≤ v → v ≤ 255 → t.log.getD v 0 = u.log.getD v 0

/-! ### The functions over the tables -/

section
variable {t u : Tables} (h : SameEntries t u)
include h

theorem SameEntries.glog (n : Int) : glog t n = glog u n := by
  by_cases hout : n < 1 ∨ 255 < n
  · rw [glog_of_out hout, glog_of_out hout]
  · rw [glog_of_in (by omega) (by omega), glog_of_in (by omega) (by omega), h.log _ (by omega) (by omega)]

theorem SameEntries.gexp (n : Int) : gexp t n = gexp u n := by
  rw [Machine.gexp, Machine.gexp, h.exp]

theorem SameEntries.gmul (a b : Byte) : gmul t a b = gmul u a b := by
  simp only [Machine.gmul, h.glog, h.gexp]

theorem SameEntries.mulRow (a : Byte) (b : ByteSeq) : mulRow t a b = mulRow u a b := by
  induction b with
  | nil => rfl
  | cons c b ih => simp only [Machine.mulRow, h.gmul, ih]

theorem SameEntries.mulRows (a b : ByteSeq) : mulRows t a b = mulRows u a b := by
  induction a with
  | nil => rfl
  | cons x a ih => simp only [Machine.mulRows, h.mulRow, ih]

theorem SameEntries.polyMul (a b : ByteSeq) : polyMul t a b = polyMul u a b := by
  simp only [Machine.polyMul, h.mulRows]

theorem SameEntries.scaleBy (ratio : Int) (d : ByteSeq) : scaleBy t ratio d = scaleBy u ratio d := by
  induction d with
  | nil => rfl
  | cons c d ih => simp only [Machine.scaleBy, h.glog, h.gexp, ih]

theorem SameEntries.modLoop (d : ByteSeq) (k : Nat) (a : ByteSeq) : modLoop t d k a = modLoop u d k a := by
  induction k generalizing a with
  | zero => rfl
  | succ k ih => simp only [Machine.modLoop, modPass, h.glog, h.scaleBy, ih]

theorem SameEntries.polyMod (a d : ByteSeq) : polyMod t a d = polyMod u a d := by
  simp only [Machine.polyMod, h.modLoop]

theorem SameEntries.genpoly (n : Nat) : genpoly t n = genpoly u n := by
  induction n with
  | zero => rfl
  | succ n ih => simp only [Machine.genpoly, h.polyMul, h.gexp, ih]

theorem SameEntries.rsEc (data : ByteSeq) (n : Nat) : rsEc t data n = rsEc u data n := by
  simp only [Machine.rsEc, h.genpoly, h.polyMod]

end

/-! ### The rules -/

/-- The engine with other tables. -/
def Engine.withTables (u : Tables) (e : Engine) : Engine := { e with tables := u }

/-- A rule's body answers the same over tables with the same entries, and writes neither. -/
theorem ruleOf_withTables {i : Instr} {e : Engine} {u : Tables} (c : Config)
    (h : usesTables i = true → SameEntries e.tables u) :
    ruleOf i c (e.withTables u) = (ruleOf i c e).map (Engine.withTables u) := by
  cases i with
  | glog n =>
    simp only [ruleOf, ruleGlog, Engine.withTables, (h rfl).glog]
    cases glog u n <;> rfl
  | gexp n =>
    simp only [ruleOf, ruleGexp, Engine.withTables, (h rfl).gexp]
    rfl
  | sclr => rfl
  | spush b =>
    rw [ruleOf, ruleSpush, ruleSpush, apply_ite (Except.map (Engine.withTables u))]
    rfl
  | pnew rd k =>
    simp only [ruleOf, rulePnew, Engine.withTables]
    cases checkLength (construct e.sb k).length c.pmax <;> rfl
  | plen ra => rfl
  | pget ra k =>
    simp only [ruleOf, rulePget, Engine.withTables]
    cases element (e.p.read ra) k <;> rfl
  | pmul rd ra rb =>
    simp only [ruleOf, rulePmul, Engine.withTables, (h rfl).polyMul]
    cases checkProduct (e.p.read ra) (e.p.read rb) c.pmax with
    | error r => rfl
    | ok _ => cases polyMul u (e.p.read ra) (e.p.read rb) <;> rfl
  | pmod rd ra rb =>
    simp only [ruleOf, rulePmod, Engine.withTables, (h rfl).polyMod]
    cases polyMod u (e.p.read ra) (e.p.read rb) <;> rfl
  | genp rd n =>
    simp only [ruleOf, ruleGenp, Engine.withTables, (h rfl).genpoly]
    cases checkLength (n + 1) c.pmax with
    | error r => rfl
    | ok _ => cases genpoly u n <;> rfl
  | rsenc n =>
    simp only [ruleOf, ruleRsenc, Engine.withTables, (h rfl).rsEc]
    cases checkLength (n + 1) c.pmax with
    | error r => rfl
    | ok _ =>
      cases checkLength (construct e.sb n).length c.pmax with
      | error r => rfl
      | ok _ =>
        cases checkLength n c.emax with
        | error r => rfl
        | ok _ => cases rsEc u e.sb n <;> rfl
  | elen => rfl
  | eget k =>
    simp only [ruleOf, ruleEget, Engine.withTables]
    cases element e.eb k <;> rfl

/-! ### The entries that R23 writes -/

/-- Every number from 1 to 255 is the number of a power of ALPHA. -/
theorem exists_alphaPow_toNat_eq {v : Nat} (h1 : 1 ≤ v) (h2 : v ≤ 255) : ∃ i < 255, (alphaPow i).toNat = v := by
  have hv : (BitVec.ofNat 8 v).toNat = v := by rw [BitVec.toNat_ofNat]; omega
  have hne : BitVec.ofNat 8 v ≠ 0 := fun h => by
    have h0 : v = 0 := hv.symm.trans (congrArg BitVec.toNat h)
    omega
  obtain ⟨i, hi, hpow⟩ := exists_alphaPow_eq hne
  exact ⟨i, hi, by rw [hpow, hv]⟩

/-- R22: no power of ALPHA is 0, so `LOG[0]` is not written (log entry 7). -/
theorem fill_log_zero (t : Tables) : (t.fill .standard).log.getD 0 0 = t.log.getD 0 0 := by
  have hunlisted : ∀ x ∈ powers .standard 255 1, x.toNat ≠ 0 := by
    rw [powers_one]
    rintro x hx h0
    obtain ⟨i, -, rfl⟩ := List.mem_map.mp hx
    exact alphaPow_ne_zero i (BitVec.eq_of_toNat_eq h0)
  have hentry : t.log[0]? = some t.log[0] := Vector.getElem?_eq_getElem (by decide)
  have hentry' : (t.fill .standard).log[0]? = some t.log[0] := by
    rw [fill_log, fillLog_of_notMem hunlisted, hentry]
  rw [getD_of_getElem? hentry, getD_of_getElem? hentry']

/-! ### Alike engines -/

/-- Alike engines are one engine with two pairs of tables, which agree where they are specified. -/
theorem alike_iff {e f : Engine} :
    Alike e f ↔ f = e.withTables f.tables ∧ (e.trdy = true → SameEntries e.tables f.tables) := by
  constructor
  · intro h
    refine ⟨?_, fun ht => ⟨h.exp ht, h.log ht⟩⟩
    obtain ⟨tables, p, sb, eb, res, status, finfo, farg⟩ := f
    simp only [Engine.withTables, Engine.mk.injEq]
    exact ⟨trivial, h.p.symm, h.sb.symm, h.eb.symm, h.res.symm, h.status.symm, h.finfo.symm, h.farg.symm⟩
  · rintro ⟨hf, hsame⟩
    rw [hf]
    exact ⟨rfl, rfl, rfl, rfl, rfl, rfl, rfl, fun ht => (hsame ht).exp, fun ht => (hsame ht).log⟩

/-- An engine and the same engine over other tables with the entries that are specified. -/
theorem alike_withTables {e : Engine} {u : Tables} (h : e.trdy = true → SameEntries e.tables u) :
    Alike e (e.withTables u) := alike_iff.mpr ⟨rfl, h⟩

/-- R23 writes every entry that R22 specifies, whatever stood there before. -/
theorem sameEntries_fill (t u : Tables) : SameEntries (t.fill .standard) (u.fill .standard) where
  exp := rfl
  log v h1 h2 := by
    obtain ⟨i, hi, rfl⟩ := exists_alphaPow_toNat_eq h1 h2
    apply BitVec.eq_of_toNat_eq
    rw [(fill_ready .standard t).log_alphaPow hi, (fill_ready .standard u).log_alphaPow hi]

section
variable {e f : Engine} (h : Alike e f)
include h

theorem Alike.faulted_eq : f.faulted = e.faulted := congrArg (·.getLsbD 1) h.status.symm

theorem Alike.trdy_eq : f.trdy = e.trdy := congrArg (·.getLsbD 0) h.status.symm

/-- R41: no port shows a table. -/
theorem Alike.readPort_eq (p : Port) : e.readPort p = f.readPort p := by
  cases p with
  | cmd => rfl
  | status => exact h.status
  | res => exact h.res
  | finfo => exact h.finfo
  | farg => exact h.farg
  | reserved => rfl

theorem Alike.enterFault (w : Word) (r : Raise) : Alike (e.enterFault w r) (f.enterFault w r) := by
  obtain ⟨hf, hsame⟩ := alike_iff.mp h
  rw [hf]
  exact alike_withTables (e := e.enterFault w r) fun ht =>
    hsame ((Engine.enterFault_trdy e w r).symm.trans ht)

theorem Alike.prologue (i : Instr) : Alike (e.prologue .standard i) (f.prologue .standard i) := by
  cases hu : usesTables i with
  | false => rwa [Engine.prologue_of_not_uses hu, Engine.prologue_of_not_uses hu]
  | true =>
    rw [Engine.prologue_of_uses hu, Engine.prologue_of_uses hu]
    cases ht : e.trdy with
    | true => rwa [Engine.tablesInit_of_ready ht, Engine.tablesInit_of_ready (h.trdy_eq.trans ht)]
    | false =>
      obtain ⟨hf, -⟩ := alike_iff.mp h
      rw [Engine.tablesInit_of_not_ready ht, Engine.tablesInit_of_not_ready (h.trdy_eq.trans ht), hf]
      exact alike_withTables (e := e.afterInit .standard) fun _ => sameEntries_fill _ _

/-- R60 step 5 from alike engines. -/
theorem Alike.finish {i : Instr} (c : Config) (hu : usesTables i = true → e.trdy = true) :
    Alike (e.finish i (ruleOf i c e)) (f.finish i (ruleOf i c f)) := by
  obtain ⟨hf, hsame⟩ := alike_iff.mp h
  have hrule : ruleOf i c f = (ruleOf i c e).map (Engine.withTables f.tables) := by
    conv_lhs => rw [hf]
    exact ruleOf_withTables c fun hi => hsame (hu hi)
  rw [hrule]
  cases hr : ruleOf i c e with
  | error r => exact h.enterFault (encode i) r
  | ok e' =>
    obtain ⟨htables, hstatus, -, -⟩ := (ruleOf_effect hr).control_frame
    refine alike_withTables (e := e') fun ht => ?_
    rw [htables]
    exact hsame ((congrArg (·.getLsbD 0) hstatus).symm.trans ht)

theorem Alike.command (c : Config) (hc : c.field = .standard) (i : Instr) :
    Alike (e.command c i (ruleOf i)) (f.command c i (ruleOf i)) := by
  rw [Engine.command, Engine.command, h.faulted_eq, hc]
  split
  · exact h
  split
  · exact (h.prologue i).finish c Engine.prologue_trdy_of_uses
  · exact h.enterFault (encode i) Raise.illegal

end

/-! ### Alike states -/

section
variable {s : State} {f : Engine} (h : Alike s.engine f)
include h

/-- A write to `CMD` answers alike from two states whose engines are alike. -/
theorem alikeOutcome_writeCmd (hc : s.cfg.field = .standard) (w : Word) :
    AlikeOutcome (writeCmd w s) (writeCmd w { s with engine := f }) := by
  unfold writeCmd
  rw [show ({ s with engine := f } : State).engine.faulted = s.engine.faulted from h.faulted_eq]
  split
  · exact ⟨h, rfl, rfl, rfl⟩
  split
  · exact ⟨h.enterFault w Raise.illegal, rfl, rfl, rfl⟩
  · rename_i i _
    rw [exec_next, exec_next]
    exact ⟨h.command s.cfg hc i, rfl, rfl, rfl⟩

theorem alikeOutcome_writePort (hc : s.cfg.field = .standard) (p : Port) (w : Word) :
    AlikeOutcome (writePort p w s) (writePort p w { s with engine := f }) := by
  cases p with
  | cmd => exact alikeOutcome_writeCmd h hc w
  | status => exact ⟨h, rfl, rfl, rfl⟩
  | res => exact ⟨h, rfl, rfl, rfl⟩
  | finfo => exact ⟨h, rfl, rfl, rfl⟩
  | farg => exact ⟨h, rfl, rfl, rfl⟩
  | reserved => exact ⟨h, rfl, rfl, rfl⟩

theorem alikeOutcome_hostAct (hc : s.cfg.field = .standard) (a : HostAction) :
    AlikeOutcome (hostAct a s) (hostAct a { s with engine := f }) := by
  cases a with
  | read addr bits =>
    simp only [hostAct, hostRead]
    cases portOf s.cfg addr bits with
    | error r => exact rfl
    | ok p => exact ⟨h, rfl, rfl, congrArg (fun v => s.returned ++ [v]) (h.readPort_eq p)⟩
  | write addr bits v =>
    simp only [hostAct, hostWrite]
    cases portOf s.cfg addr bits with
    | error r => exact rfl
    | ok p => exact alikeOutcome_writePort h hc p v
  | reset => exact ⟨alike_withTables (e := Engine.reset) fun _ => ⟨rfl, fun _ _ _ => rfl⟩, rfl, rfl, rfl⟩

theorem alikeOutcome_step (hc : s.cfg.field = .standard) :
    AlikeOutcome (step s) (step { s with engine := f }) := by
  obtain ⟨e, cfg, pending, returned⟩ := s
  cases pending with
  | nil => exact ⟨h, rfl, rfl, rfl⟩
  | cons a rest => exact alikeOutcome_hostAct (s := ⟨e, cfg, rest, returned⟩) h hc a

end

end Sys2Proof.Machine
end

section
/-! The statements of the state of the engine (10_state.md). -/

namespace Sys2Proof.Machine

/-! ### The invariant -/

/-- Settles O19: the invariant of the engine's reset values, at the default parameters. -/
theorem invariantAtReset : Obligations.InvariantAtReset := inv_of_engine_reset (by decide) rfl

/-- Settles O20: by what a step can do to the engine, each part of which keeps the invariant. -/
theorem stepKeepsTheInvariant : Obligations.StepKeepsTheInvariant := by
  intro s t hs hstep
  obtain ⟨hcfg, ⟨-, he⟩ | he | ⟨-, w, he⟩ | ⟨-, i, hexec⟩⟩ := step_engine_cases hstep
  · exact inv_of_engine_reset (hcfg ▸ hs.legal) he
  · exact hs.of_engine_eq hcfg he
  · exact (hs.enterFault w Raise.illegal).of_engine_eq hcfg he
  · exact (hs.exec hexec).of_engine_eq hcfg rfl

/-- Settles O26: a step of two alike states does the same to both, since the rules read the tables
through `glog` and `gexp` only, after table initialisation. -/
theorem unspecifiedTablesAreUnobservable : Obligations.UnspecifiedTablesAreUnobservable := by
  rintro ⟨e, cfg, pending, returned⟩ ⟨f, _, _, _⟩ hs - halike rfl rfl rfl
  exact alikeOutcome_step (s := ⟨e, cfg, pending, returned⟩) halike hs.legal.1

/-- Settles O11: outside reset, what changes the engine needs `FAULT = 0`. -/
theorem faultStateHoldsTheEngine : Obligations.FaultStateHoldsTheEngine := by
  intro s t hf hreset hstep
  obtain ⟨-, ⟨hr, -⟩ | he | ⟨hf', -⟩ | ⟨hf', -⟩⟩ := step_engine_cases hstep
  · exact absurd hr hreset
  · exact he
  · rw [hf] at hf'; cases hf'
  · rw [hf] at hf'; cases hf'

/-- Settles O29: every value a rule gives `RES` is a byte or the length of a register or of `EB`. -/
theorem resultsStayAtMost256 : Obligations.ResultsStayAtMost256 := by
  intro s t hs hpmax hemax hres hstep
  obtain ⟨-, ⟨-, he⟩ | he | ⟨-, w, he⟩ | ⟨-, i, hexec⟩⟩ := step_engine_cases hstep
  · rw [he]; decide
  · rwa [he]
  · rwa [he]
  · have hp := fun r => (hs.polyLength r).trans hpmax.le
    have heb := hs.ebLength.trans (hemax.le.trans (by decide : 255 ≤ 256))
    exact exec_res_toNat_le (t := { s with engine := t.engine }) hexec (by decide) hp heb hres

/-! ### The tables and the frame of the commands -/

/-- Settles O21: the prologue of a table user, which neither its rule nor a fault undoes. -/
theorem tableUsersInitialiseTheTables : Obligations.TableUsersInitialiseTheTables := by
  intro i s hf ha
  obtain ⟨htables, htrdy⟩ := exec_tables_of_admits hf ha (exec_next i s)
  refine ⟨_, exec_next i s, ?_⟩
  rw [mem_tableUsers_iff, htables, htrdy]
  refine ⟨fun hu => ⟨Engine.prologue_trdy_of_uses hu, fun ht => ?_, fun ht => ?_⟩, fun hu => ?_⟩
  · rw [Engine.prologue_of_uses hu, Engine.tablesInit_of_not_ready ht, Engine.afterInit_tables]
  · rw [Engine.prologue_of_trdy ht]
  · rw [Engine.prologue_of_not_uses (Bool.eq_false_iff.mpr hu)]
    exact ⟨rfl, rfl⟩

/-- Settles O22: a command fills tables only while `TRDY = 0`. -/
theorem readyTablesNeverChange : Obligations.ReadyTablesNeverChange := by
  intro s t ht hreset hstep
  obtain ⟨-, ⟨hr, -⟩ | he | ⟨-, w, he⟩ | ⟨-, i, hexec⟩⟩ := step_engine_cases hstep
  · exact absurd hr hreset
  · rw [he]; exact ⟨rfl, ht⟩
  · rw [he]; exact ⟨rfl, (Engine.enterFault_trdy s.engine w _).trans ht⟩
  · rcases exec_tables hexec with ⟨htables, htrdy⟩ | ⟨-, hnot, -⟩
    · exact ⟨htables, htrdy.trans ht⟩
    · rw [ht] at hnot; cases hnot

/-- Settles O23: item by item, what a rule's one write leaves alone. -/
theorem commandsWriteOnlyWhatTheyAreListedFor : Obligations.CommandsWriteOnlyWhatTheyAreListedFor := by
  intro i s t h
  obtain ⟨hp, hsb, heb, hres, -, -⟩ := Engine.prologue_frame s.cfg.field i s.engine
  have hside : t = { s with engine := t.engine } := by
    cases h.symm.trans (exec_next i s); rfl
  refine ⟨fun hi => exec_field_eq (·.res) h hres (fun _ _ _ => rfl) fun _ he => he.res_eq hi,
    fun hi => exec_field_eq (·.sb) h hsb (fun _ _ _ => rfl) fun _ he => he.sb_eq hi,
    fun hi => exec_field_eq (·.eb) h heb (fun _ _ _ => rfl) fun _ he => he.eb_eq hi,
    fun r hnew hmul hmod hgen => ?_, ?_, exec_record_of_faulted_eq h, exec_other_bits h, ?_⟩
  · have hd : i.dest ≠ some r := dest_ne_of_forall hnew hmul hmod hgen
    exact exec_field_eq (·.p.read r) h (congrArg (·.read r) hp) (fun _ _ _ => rfl) fun _ he => he.read_eq hd
  · rcases exec_tables h with ⟨htables, -⟩ | ⟨hu, hnot, htrdy, htables⟩
    · exact .inl htables
    · exact .inr ⟨(mem_tableUsers_iff i).mpr hu, hnot, htrdy, htables⟩
  · rw [hside]; exact ⟨rfl, rfl, rfl⟩

/-- Settles O30: the written register by what a write stores, another by what it leaves. -/
theorem registerReadAfterWrite : Obligations.RegisterReadAfterWrite := by
  intro p rd r v
  split
  · next h => rw [h, PolyRegs.read_write_same]
  · next h => exact PolyRegs.read_write_other p v h

/-- Settles O31: the entries of filled tables, and that the second loop names no entry 0. -/
theorem tablesHoldThePowersOfAlpha : Obligations.TablesHoldThePowersOfAlpha := by
  intro t
  have hready := fill_ready .standard t
  refine ⟨fun i hi => hready.exp_getD hi, fun i hi => hready.log_alphaPow (Nat.lt_succ_of_le hi),
    fun v h1 h2 => ?_, ?_, alphaPow_periodic 0⟩
  · obtain ⟨i, hi, rfl⟩ := exists_alphaPow_toNat_eq h1 h2
    rw [hready.log_alphaPow hi, BitVec.ofNat_toNat, BitVec.setWidth_eq]
    exact ⟨rfl, Nat.le_of_lt_succ hi⟩
  · exact fill_log_zero t

/-! ### Products and remainders -/

/-- A table user whose rule completes over filled tables (R24, R60). -/
theorem exec_of_live_of_ok {i : Instr} {s : State} {e : Engine} (hs : Live s) (ha : s.cfg.admits i = true)
    (hu : usesTables i = true) (hr : ruleOf i s.cfg (s.engine.afterInit s.cfg.field) = .ok e) :
    exec i s = nextEngine s e := by
  rw [← Engine.prologue_of_inv hs.1 hu] at hr
  rw [exec_eq_command, command_of_ok hs.2 ha hr]

theorem afterInit_ready {s : State} (h : Inv s) : (s.engine.afterInit s.cfg.field).tables.Ready .standard :=
  h.legal.1 ▸ fill_ready _ _

section
variable {s : State} {rd ra rb : PReg} {v : ByteSeq} (hs : Live s)
include hs

theorem exec_pmul_of_ok (ha : s.cfg.admits (.pmul rd ra rb) = true)
    (hlen : checkProduct (s.engine.p.read ra) (s.engine.p.read rb) s.cfg.pmax = .ok ())
    (hv : polyMul (s.engine.afterInit s.cfg.field).tables (s.engine.p.read ra) (s.engine.p.read rb) = .ok v) :
    exec (.pmul rd ra rb) s =
      nextEngine s { s.engine.afterInit s.cfg.field with p := s.engine.p.write rd v } := by
  refine exec_of_live_of_ok hs ha rfl ?_
  rw [ruleOf, rulePmul, Engine.afterInit_p, hlen, ok_bind, hv]
  rfl

theorem exec_pmod_of_ok (ha : s.cfg.admits (.pmod rd ra rb) = true)
    (hv : polyMod (s.engine.afterInit s.cfg.field).tables (s.engine.p.read ra) (s.engine.p.read rb) = .ok v) :
    exec (.pmod rd ra rb) s =
      nextEngine s { s.engine.afterInit s.cfg.field with p := s.engine.p.write rd v } := by
  refine exec_of_live_of_ok hs ha rfl ?_
  rw [ruleOf, rulePmod, Engine.afterInit_p, hv]
  rfl

end

/-- R102: an empty operand takes no length test. -/
theorem checkProduct_of_empty {a b : ByteSeq} (h : a = [] ∨ b = []) (cap : Nat) :
    checkProduct a b cap = .ok () := by
  rw [checkProduct, if_neg]
  rintro ⟨ha, hb⟩
  rcases h with rfl | rfl
  · cases ha
  · cases hb

/-- Settles O43: the rows of R101 are those of the product over the field, which needs no strip. -/
theorem pmulGivesTheProduct : Obligations.PmulGivesTheProduct := by
  intro s rd ra rb hs hrd hra hrb
  have ha : s.cfg.admits (.pmul rd ra rb) = true := by simp [Config.admits, Instr.regs, hrd, hra, hrb]
  refine ⟨fun hempty => ?_, fun hne hne' hlen hnz hnz' => ?_⟩
  · exact exec_pmul_of_ok hs ha (checkProduct_of_empty hempty _) (polyMul_of_empty _ hempty)
  · refine exec_pmul_of_ok hs ha ?_ (polyMul_of_noZero (afterInit_ready hs.1) hne hne' hnz hnz')
    rw [checkProduct, checkLength_of_le hlen, ite_self]

/-- Settles O45: R105's loop is division over the field. -/
theorem pmodGivesTheRemainder : Obligations.PmodGivesTheRemainder := by
  intro s rd ra rb hs hrd hra hrb hne
  have ha : s.cfg.admits (.pmod rd ra rb) = true := by simp [Config.admits, Instr.regs, hrd, hra, hrb]
  refine ⟨fun hshort => exec_pmod_of_ok hs ha (polyMod_of_short hshort), fun hle hnz => ?_⟩
  have hpoly := hs.1.poly ra
  obtain ⟨r, hr, hlt, q, hq, hdiv⟩ := polyMod_of_noZero (afterInit_ready hs.1) hpoly hne hnz hle
  have hlen : (s.engine.p.read ra).length - (s.engine.p.read rb).length + 1 + (s.engine.p.read rb).length - 1 =
      (s.engine.p.read ra).length := by omega
  rw [hlen, rightAlign_self] at hdiv
  exact ⟨q, r, hq, hlt, (polyMod_shape hpoly hr).1, hdiv, exec_pmod_of_ok hs ha hr⟩

end Sys2Proof.Machine
end

section
/-! What a step does for each action of the host at the port window (R40 to R44), and that it reads no
byte order (R47). -/

namespace Sys2Proof.Machine

/-! ### The host's next action -/

/-- R48: the host takes its actions in order. -/
theorem step_of_cons {s : State} {a : HostAction} {rest : List HostAction} (hp : s.pending = a :: rest) :
    step s = hostAct a { s with pending := rest } := by
  rw [step, hostStep, hp]

/-- R44: a read is refused when its access has no meaning. -/
theorem hostRead_refused_iff {addr bits : Nat} {s : State} :
    (∃ r, hostRead addr bits s = .refused r) ↔ ∃ r, portOf s.cfg addr bits = .error r := by
  rw [hostRead]
  cases portOf s.cfg addr bits with
  | error r => simp
  | ok p => simp

/-- R42: no write to a port of the window is refused, and it differs in the engine alone. -/
theorem writePort_next (p : Port) (v : Word) (s : State) : ∃ e, writePort p v s = nextEngine s e := by
  cases p with
  | cmd => exact writeCmd_next v s
  | _ => exact ⟨s.engine, rfl⟩

/-- R44: a write is refused when its access has no meaning. -/
theorem hostWrite_refused_iff {addr bits : Nat} {v : Word} {s : State} :
    (∃ r, hostWrite addr bits v s = .refused r) ↔ ∃ r, portOf s.cfg addr bits = .error r := by
  rw [hostWrite]
  cases portOf s.cfg addr bits with
  | error r => simp
  | ok p =>
    obtain ⟨e, he⟩ := writePort_next p v s
    simp [he, nextEngine]

/-- No fault ends a run (log entry 10), so what is not refused answers a next state. -/
theorem next_of_not_refused {o : Host.Outcome State Fault Refusal} (h : ¬ ∃ r, o = .refused r) :
    ∃ t, o = .next t := by
  cases o with
  | next t => exact ⟨t, rfl⟩
  | fault r => cases r
  | refused r => exact absurd ⟨r, rfl⟩ h

/-! ### The slots of the window -/

section
variable {s : State} {k : Nat} {rest : List HostAction} (hc : LegalConfig s.cfg)
include hc

/-- R40, R41: a read of slot `k` returns the value of its port. -/
theorem step_of_read_slot (hk : k < 8) (hp : s.pending = .read (s.cfg.base + 4 * k) 32 :: rest) :
    step s = .next { s with
      pending := rest
      returned := s.returned ++ [s.engine.readPort (portAtSlot k)] } := by
  rw [step_of_cons hp, hostAct, hostRead, portOf_slot hc hk]

/-- R42: a write to slot `k` is a write to its port. -/
theorem step_of_write_slot {v : Word} (hk : k < 8) (hp : s.pending = .write (s.cfg.base + 4 * k) 32 v :: rest) :
    step s = writePort (portAtSlot k) v { s with pending := rest } := by
  rw [step_of_cons hp, hostAct, hostWrite, portOf_slot hc hk]

/-- R60: the write of a word to `CMD`. -/
theorem step_of_writes {w : Word} (hw : s.Writes w rest) : step s = writeCmd w { s with pending := rest } :=
  step_of_write_slot hc (k := 0) (by decide) hw

end

/-- R43: a write to any port but `CMD` is ignored. -/
theorem writePort_of_ne_cmd {p : Port} (h : p ≠ .cmd) (v : Word) (s : State) : writePort p v s = .next s := by
  cases p with
  | cmd => exact absurd rfl h
  | _ => rfl

/-- R40: `CMD` is slot 0 alone. -/
theorem portAtSlot_ne_cmd {k : Nat} (h : 1 ≤ k) : portAtSlot k ≠ .cmd := by
  match k, h with
  | 1, _ | 2, _ | 3, _ | 4, _ | _ + 5, _ => exact nofun

/-- R40: the slots from 5 on are reserved. -/
theorem portAtSlot_of_five_le {k : Nat} (h : 5 ≤ k) : portAtSlot k = .reserved := by
  match k, h with
  | _ + 5, _ => rfl

/-- R60: the write of a command's word is the command, which the fault state ignores by itself (R141). -/
theorem writeCmd_of_decode {w : Word} {i : Instr} (h : decode w = .ok i) (s : State) :
    writeCmd w s = exec i s := by
  rw [writeCmd, h]
  split
  · next hf => rw [exec_eq_command, command_of_faulted hf]
  · rfl

theorem run_succ_of_next {M : Host.Core} {s t : M.State} (h : M.step s = .next t) (n : Nat) :
    M.run (n + 1) s = M.run n t := by
  rw [Host.Core.run, h]

theorem core_run_succ {s t : State} (h : step s = .next t) (n : Nat) : core.run (n + 1) s = core.run n t :=
  run_succ_of_next (M := core) h n

/-- R41: a read of the window leaves the value of a second one right after it. -/
theorem core_run_two_reads {s : State} {j k : Nat} {rest : List HostAction} (hc : LegalConfig s.cfg)
    (hj : j < 8) (hk : k < 8)
    (hp : s.pending = .read (s.cfg.base + 4 * j) 32 :: .read (s.cfg.base + 4 * k) 32 :: rest) :
    core.run 2 s = .next { s with
      pending := rest
      returned := s.returned ++ [s.engine.readPort (portAtSlot j), s.engine.readPort (portAtSlot k)] } := by
  have hfirst := step_of_read_slot hc hj hp
  have hsecond := step_of_read_slot (s := { s with
    pending := .read (s.cfg.base + 4 * k) 32 :: rest
    returned := s.returned ++ [s.engine.readPort (portAtSlot j)] }) hc hk rfl
  rw [List.append_assoc] at hsecond
  exact (core_run_succ hfirst 1).trans (core_run_succ hsecond 0)

/-! ### The byte order -/

/-- The machine with another `HOST_BYTE_ORDER`. -/
def State.withByteOrder (o : ByteOrder) (s : State) : State :=
  { s with cfg := { s.cfg with hostByteOrder := o } }

/-- An outcome with its next state changed. -/
def mapNext (f : State → State) : Host.Outcome State Fault Refusal → Host.Outcome State Fault Refusal
  | .next s => .next (f s)
  | .fault r => .fault r
  | .refused r => .refused r

/-- R47: no rule's body reads the byte order, and neither does what R60 puts around it. -/
theorem command_withByteOrder (o : ByteOrder) (c : Config) (i : Instr) (e : Engine) :
    e.command { c with hostByteOrder := o } i (ruleOf i) = e.command c i (ruleOf i) := by
  cases i <;> rfl

section
variable (o : ByteOrder) (s : State)

theorem exec_withByteOrder (i : Instr) :
    exec i (s.withByteOrder o) = mapNext (State.withByteOrder o) (exec i s) := by
  rw [exec_next, exec_next]
  exact congrArg (nextEngine (s.withByteOrder o)) (command_withByteOrder o s.cfg i s.engine)

theorem writeCmd_withByteOrder (w : Word) :
    writeCmd w (s.withByteOrder o) = mapNext (State.withByteOrder o) (writeCmd w s) := by
  have hf : (s.withByteOrder o).engine.faulted = s.engine.faulted := rfl
  rw [writeCmd, writeCmd, hf]
  split
  · rfl
  · cases decode w with
    | error r => rfl
    | ok i => exact exec_withByteOrder o s i

theorem writePort_withByteOrder (p : Port) (v : Word) :
    writePort p v (s.withByteOrder o) = mapNext (State.withByteOrder o) (writePort p v s) := by
  cases p with
  | cmd => exact writeCmd_withByteOrder o s v
  | _ => rfl

/-- R44 takes from the parameters only `BASE`. -/
theorem hostAct_withByteOrder (a : HostAction) :
    hostAct a (s.withByteOrder o) = mapNext (State.withByteOrder o) (hostAct a s) := by
  cases a with
  | read addr bits =>
    have hport : portOf (s.withByteOrder o).cfg addr bits = portOf s.cfg addr bits := rfl
    rw [hostAct, hostAct, hostRead, hostRead, hport]
    cases portOf s.cfg addr bits <;> rfl
  | write addr bits v =>
    have hport : portOf (s.withByteOrder o).cfg addr bits = portOf s.cfg addr bits := rfl
    rw [hostAct, hostAct, hostWrite, hostWrite, hport]
    cases portOf s.cfg addr bits with
    | error r => rfl
    | ok p => exact writePort_withByteOrder o s p v
  | reset => rfl

/-- R47: a step commutes with a change of the byte order. -/
theorem step_withByteOrder : step (s.withByteOrder o) = mapNext (State.withByteOrder o) (step s) := by
  obtain ⟨e, c, pending, returned⟩ := s
  cases pending with
  | nil => rfl
  | cons a rest => exact hostAct_withByteOrder o ⟨e, c, rest, returned⟩ a

end

end Sys2Proof.Machine
end

section
/-! The statements of the port window (20_memory.md). -/

namespace Sys2Proof.Machine

/-- Settles O15: by the host's next action, whose access `portOf` tests. -/
theorem onlyMeaninglessAccessesAreRefused : Obligations.OnlyMeaninglessAccessesAreRefused := by
  refine fun s _ => ⟨?_, next_of_not_refused⟩
  cases hp : s.pending with
  | nil => simp [noHostActionNoChange s hp]
  | cons a rest =>
    rw [step_of_cons hp]
    cases a with
    | read addr bits => rw [hostAct, hostRead_refused_iff, portOf_error_iff]; simp
    | write addr bits v => rw [hostAct, hostWrite_refused_iff, portOf_error_iff]; simp
    | reset => simp [hostAct, hostReset]

/-- Settles O28: a step commutes with a change of the byte order. -/
theorem byteOrderIsNeverRead : Obligations.ByteOrderIsNeverRead := by
  intro s o
  have hstep := step_withByteOrder o s
  rw [State.withByteOrder] at hstep
  rw [hstep]
  cases step s with
  | next t => exact rfl
  | fault r => cases r
  | refused r => exact rfl

/-- Settles O7: the write reaches `CMD`, and its word decodes. -/
theorem stepRunsTheDecodedCommand : Obligations.StepRunsTheDecodedCommand := by
  have hwrite : ∀ (s : State) (w : Word) (rest : List HostAction) (i : Instr), LegalConfig s.cfg →
      s.Writes w rest → decode w = .ok i → step s = exec i { s with pending := rest } :=
    fun s w rest i hc hw hd => (step_of_writes hc hw).trans (writeCmd_of_decode hd _)
  refine ⟨hwrite, fun s w i hc hd => ?_⟩
  have hword : BitVec.ofNat 32 (w.toNat % 2 ^ 32) = w := by
    rw [Nat.mod_eq_of_lt w.isLt, BitVec.ofNat_toNat, BitVec.setWidth_eq]
  have hw : (s.withFetchWord 32 w.toNat).Writes w s.pending := by
    rw [State.Writes, State.withFetchWord, commandWrite, hword]
  exact hwrite _ w s.pending i hc hw hd

/-- Settles O13: slot by slot; a read leaves the ports as they were. -/
theorem readsReturnThePortTable : Obligations.ReadsReturnThePortTable := by
  intro s k rest hc hk v
  have hv : s.engine.readPort (portAtSlot k) = v := by
    subst v
    match k with
    | 0 | 1 | 2 | 3 | 4 | _ + 5 => rfl
  rw [← hv]
  exact ⟨step_of_read_slot hc hk, core_run_two_reads hc hk hk⟩

/-- Settles O14: only slot 0 takes a write, and the slots from 5 on read as 0. -/
theorem pointlessAccessesChangeNothing : Obligations.PointlessAccessesChangeNothing := by
  intro s k v rest hc hk
  refine ⟨fun h1 hp => ?_, fun h5 hp => ?_⟩
  · rw [step_of_write_slot hc hk hp, writePort_of_ne_cmd (portAtSlot_ne_cmd h1)]
  · rw [step_of_read_slot hc hk hp, portAtSlot_of_five_le h5]
    rfl

/-- Settles O16: the command leaves the later reads pending, and each read leaves the engine. -/
theorem readSeesTheLatestCommand : Obligations.ReadSeesTheLatestCommand := by
  intro s w rest hc hw
  obtain ⟨e, he⟩ := writeCmd_next w { s with
    pending := .read (s.cfg.base + 4) 32 :: .read (s.cfg.base + 8) 32 :: rest }
  have hcmd := (step_of_writes hc hw).trans he
  exact ⟨_, hcmd, (core_run_succ hcmd 2).trans
    (core_run_two_reads hc (j := 1) (k := 2) (by decide) (by decide) rfl)⟩

end Sys2Proof.Machine
end

section
/-! What the fields of a word must be for the word to be one of a row's commands (R57, R58), and that
decoding and encoding such fields are inverse (R59, R63). -/

namespace Sys2Proof

/-! ### Immediates -/

theorem toNat_imm {k : Nat} (h : k ≤ 65535) : (BitVec.ofNat 16 k).toNat = k := by
  rw [BitVec.toNat_ofNat]
  omega

theorem toInt_imm {n : Int} (h : -32768 ≤ n ∧ n ≤ 32767) : (BitVec.ofInt 16 n).toInt = n :=
  BitVec.toInt_ofInt_eq_self (by decide) h.1 (Int.lt_add_one_of_le h.2)

theorem toNat_low_imm {b : Nat} (h : b ≤ 255) : ((BitVec.ofNat 16 b).extractLsb' 0 8).toNat = b := by
  rw [BitVec.extractLsb'_toNat, toNat_imm (by omega), Nat.shiftRight_zero]
  omega

/-- R59: a byte immediate is one that its low byte gives back. -/
theorem ImmUse.admits_byte_iff {x : BitVec 16} :
    ImmUse.byte.admits x = true ↔ BitVec.ofNat 16 (x.extractLsb' 0 8).toNat = x := by
  have hx := x.isLt
  have hzero : (0 : BitVec 8).toNat = 0 := rfl
  rw [ImmUse.admits, beq_iff_eq, ← BitVec.toNat_inj, ← BitVec.toNat_inj, BitVec.toNat_ofNat,
    BitVec.extractLsb'_toNat, BitVec.extractLsb'_toNat, Nat.shiftRight_zero, Nat.shiftRight_eq_div_pow, hzero]
  omega

theorem ImmUse.admits_byte_ofNat {b : Nat} (h : b ≤ 255) : ImmUse.byte.admits (BitVec.ofNat 16 b) = true := by
  rw [ImmUse.admits_byte_iff, toNat_low_imm h]

/-! ### The fields of a row's words -/

/-- R57: there is no objection exactly when the fields that the row does not use are zero. -/
theorem Format.objection_eq_none_iff {t : Format} {f : Fields} :
    t.objection f = none ↔ f.z = 0 ∧ (t.rd = false → f.rd = 0) ∧ (t.ra = false → f.ra = 0) ∧
      (t.rb = false → f.rb = 0) ∧ t.imm.admits f.imm = true := by
  unfold Format.objection
  simp [ite_eq_iff, and_assoc]

/-- The fields are those of a word of the row `m` (R57, R58). -/
def Fields.Legal (m : Mnemonic) (f : Fields) : Prop := f.op = m.format.op ∧ m.format.objection f = none

/-- R60 step 2: what decodes are the words of the rows, each to the command that its fields build. -/
theorem decode_eq_ok_iff {w : Word} {i : Instr} :
    decode w = .ok i ↔ ∃ m, (splitWord w).Legal m ∧ buildInstr m (splitWord w) = i := by
  constructor
  · intro h
    unfold decode at h
    split at h
    · cases h
    · next m hm =>
      split at h
      · cases h
      · next hobj =>
        cases h
        exact ⟨m, ⟨(Mnemonic.op_of_ofOpcode hm).symm, hobj⟩, rfl⟩
  · rintro ⟨m, ⟨hop, hobj⟩, rfl⟩
    rw [← joinFields_splitWord w, decode_joinFields (splitWord w) hop, hobj, splitWord_joinFields]

@[simp] theorem mnemonic_buildInstr (m : Mnemonic) (f : Fields) : (buildInstr m f).mnemonic = m := by
  cases m <;> rfl

/-- A word decodes to a command of the row `m` exactly when its fields are legal for `m`. -/
theorem exists_decode_mnemonic_iff {w : Word} {m : Mnemonic} :
    (∃ i, decode w = .ok i ∧ i.mnemonic = m) ↔ (splitWord w).Legal m := by
  constructor
  · rintro ⟨i, hi, rfl⟩
    obtain ⟨m, hm, rfl⟩ := decode_eq_ok_iff.mp hi
    rwa [mnemonic_buildInstr]
  · exact fun h => ⟨_, decode_eq_ok_iff.mpr ⟨m, h, rfl⟩, mnemonic_buildInstr m _⟩

theorem exists_decode_ok_iff {w : Word} : (∃ i, decode w = .ok i) ↔ ∃ m, (splitWord w).Legal m := by
  simp only [← exists_decode_mnemonic_iff]
  exact ⟨fun ⟨i, hi⟩ => ⟨i.mnemonic, i, hi, rfl⟩, fun ⟨_, i, hi, _⟩ => ⟨i, hi⟩⟩

/-- R61: a word is rejected exactly when its fields are legal for no row. -/
theorem exists_decode_error_iff {w : Word} :
    (∃ r, decode w = .error r) ↔ ∀ m, ¬ (splitWord w).Legal m := by
  rw [← not_exists, ← exists_decode_ok_iff]
  cases decode w <;> simp

/-! ### Encoding and decoding -/

/-- R57, R58: the opcode, `z` and the unused registers of every command's word. -/
theorem wordFields (i : Instr) : Laws.WordFields.Statement i := by
  cases i with
  | glog n => exact Laws.WordFields.glog n
  | gexp n => exact Laws.WordFields.gexp n
  | sclr => exact Laws.WordFields.sclr
  | spush b => exact Laws.WordFields.spush b
  | pnew rd k => exact Laws.WordFields.pnew rd k
  | plen ra => exact Laws.WordFields.plen ra
  | pget ra k => exact Laws.WordFields.pget ra k
  | pmul rd ra rb => exact Laws.WordFields.pmul rd ra rb
  | pmod rd ra rb => exact Laws.WordFields.pmod rd ra rb
  | genp rd n => exact Laws.WordFields.genp rd n
  | rsenc n => exact Laws.WordFields.rsenc n
  | elen => exact Laws.WordFields.elen
  | eget k => exact Laws.WordFields.eget k

theorem admits_fields {i : Instr} (h : i.wf = true) : i.mnemonic.format.imm.admits i.fields.imm = true := by
  cases i with
  | spush b | genp _ b | rsenc b => exact ImmUse.admits_byte_ofNat (of_decide_eq_true h)
  | _ => rfl

theorem legal_fields {i : Instr} (h : i.wf = true) : i.fields.Legal i.mnemonic := by
  have hword := wordFields i
  rw [Laws.WordFields.Statement, encode, splitWord_joinFields] at hword
  obtain ⟨hop, hz, hrd, hra, hrb⟩ := hword
  exact ⟨hop, Format.objection_eq_none_iff.mpr ⟨hz, hrd, hra, hrb, admits_fields h⟩⟩

/-- R59: operands in their ranges are read from the fields as they were put there. -/
theorem buildInstr_fields {i : Instr} (h : i.wf = true) : buildInstr i.mnemonic i.fields = i := by
  cases i with
  | glog n | gexp n => simp [Instr.mnemonic, Instr.fields, buildInstr, toInt_imm (of_decide_eq_true h)]
  | spush b | rsenc b | genp _ b =>
    simp [Instr.mnemonic, Instr.fields, buildInstr, toNat_low_imm (of_decide_eq_true h)]
  | pnew _ k | pget _ k | eget k =>
    simp only [Instr.mnemonic, Instr.fields, buildInstr, toNat_imm (of_decide_eq_true h), PReg.ofNum_num]
  | _ => simp [Instr.mnemonic, Instr.fields, buildInstr]

/-- R59: what is read from an immediate lies in the range of its use. -/
theorem wf_buildInstr (m : Mnemonic) (f : Fields) : (buildInstr m f).wf = true := by
  have hlow := (f.imm.extractLsb' 0 8).isLt
  have himm := f.imm.isLt
  have hge := f.imm.le_toInt
  have hlt := f.imm.toInt_lt
  cases m with
  | glog | gexp => exact decide_eq_true ⟨hge, Int.le_of_lt_add_one hlt⟩
  | spush | genp | rsenc => exact decide_eq_true (Nat.le_of_lt_succ hlow)
  | pnew | pget | eget => exact decide_eq_true (Nat.le_of_lt_succ himm)
  | _ => rfl

/-- R57: the unused fields of a legal word are the zeros that the encoder puts there. -/
theorem fields_buildInstr {m : Mnemonic} {f : Fields} (h : f.Legal m) : (buildInstr m f).fields = f := by
  obtain ⟨hop, hobj⟩ := h
  obtain ⟨hz, hrd, hra, hrb, himm⟩ := Format.objection_eq_none_iff.mp hobj
  obtain ⟨op, rd, ra, rb, z, imm⟩ := f
  dsimp only at hop hz hrd hra hrb himm
  subst hop hz
  cases m with
  | spush | genp | rsenc =>
    have hlow := ImmUse.admits_byte_iff.mp himm
    simp_all [Mnemonic.format, Instr.fields, buildInstr, Instr.mnemonic]
  | _ => simp_all [Mnemonic.format, Instr.fields, buildInstr, Instr.mnemonic, ImmUse.admits]

end Sys2Proof
end

section
/-! The opcode table of R58 as masks over the fields, and how many words each of its rows has (R62). -/

namespace Sys2Proof

/-! ### Masks -/

/-- The bits of a register field that a row fixes at zero. -/
def regMask (used : Bool) : BitVec 2 := if used then 0 else 3

/-- The bits of the immediate that a row fixes at zero (R59). -/
def ImmUse.mask : ImmUse → BitVec 16
  | .signed => 0
  | .unsigned => 0
  | .byte => 0xFF00
  | .none => 0xFFFF

/-- The bits that a row of R58 fixes. -/
def Format.mask (t : Format) : Word :=
  joinFields ⟨0xFF, regMask t.rd, regMask t.ra, regMask t.rb, 3, t.imm.mask⟩

/-- The value that a row of R58 fixes them at. -/
def Format.word (t : Format) : Word := joinFields ⟨t.op, 0, 0, 0, 0, 0⟩

/-- R58: the table of the spec lists these masks and values. -/
theorem opcodeTable_eq :
    Machine.opcodeTable = Mnemonic.all.map fun m => (m, m.format.word, m.format.mask) := by decide

theorem Mnemonic.mem_all (m : Mnemonic) : m ∈ Mnemonic.all := by cases m <;> decide

theorem and_regMask_eq_zero_iff {used : Bool} {x : BitVec 2} :
    x &&& regMask used = 0 ↔ (used = false → x = 0) := by
  revert used x; decide

theorem and_immMask_eq_zero_iff {u : ImmUse} {x : BitVec 16} : x &&& u.mask = 0 ↔ u.admits x = true := by
  cases u with
  | signed | unsigned => exact iff_of_true BitVec.and_zero rfl
  | none => rw [ImmUse.admits, beq_iff_eq]; exact Eq.congr_left BitVec.and_allOnes
  | byte =>
    constructor
    · intro h
      have hhigh := congrArg (BitVec.extractLsb' 8 8) h
      rw [BitVec.extractLsb'_and] at hhigh
      exact beq_iff_eq.mpr (BitVec.and_allOnes.symm.trans hhigh)
    · intro h
      rw [← ImmUse.admits_byte_iff.mp h]
      generalize x.extractLsb' 0 8 = low
      revert low; decide

/-- Bitwise conjunction works on each field by itself. -/
theorem splitWord_and (w v : Word) :
    splitWord (w &&& v) = ⟨(splitWord w).op &&& (splitWord v).op, (splitWord w).rd &&& (splitWord v).rd,
      (splitWord w).ra &&& (splitWord v).ra, (splitWord w).rb &&& (splitWord v).rb,
      (splitWord w).z &&& (splitWord v).z, (splitWord w).imm &&& (splitWord v).imm⟩ := by
  simp only [splitWord, BitVec.extractLsb'_and]

theorem splitWord_injective : Function.Injective splitWord := Function.LeftInverse.injective joinFields_splitWord

/-- R58: the test of a row is the one that the decoder makes. -/
theorem and_mask_eq_iff {w : Word} {m : Mnemonic} :
    w &&& m.format.mask = m.format.word ↔ (splitWord w).Legal m := by
  have hop : (splitWord w).op &&& 0xFF = (splitWord w).op := BitVec.and_allOnes
  have hz : (splitWord w).z &&& 3 = (splitWord w).z := BitVec.and_allOnes
  rw [← splitWord_injective.eq_iff, splitWord_and, Format.mask, Format.word, splitWord_joinFields,
    splitWord_joinFields, Fields.mk.injEq, hop, hz, and_regMask_eq_zero_iff, and_regMask_eq_zero_iff,
    and_regMask_eq_zero_iff, and_immMask_eq_zero_iff, Fields.Legal, Format.objection_eq_none_iff]
  tauto

theorem forall_opcodeTable {p : Mnemonic × Word × Word → Prop} :
    (∀ row ∈ Machine.opcodeTable, p row) ↔ ∀ m : Mnemonic, p (m, m.format.word, m.format.mask) := by
  simp [opcodeTable_eq, Mnemonic.mem_all]

/-! ### Counting -/

/-- The values of a register field in the words of a row. -/
def regValues (used : Bool) : Set (BitVec 2) := {x | used = false → x = 0}

/-- The values of the immediate in the words of a row. -/
def ImmUse.values (u : ImmUse) : Set (BitVec 16) := {x | u.admits x = true}

/-- How many values the immediate has under each use. -/
def ImmUse.count : ImmUse → Nat
  | .signed => 65536
  | .unsigned => 65536
  | .byte => 256
  | .none => 1

theorem ncard_univ_bitVec (n : Nat) : (Set.univ : Set (BitVec n)).ncard = 2 ^ n := by
  rw [Set.ncard_univ, Nat.card_congr (BitVec.equivFin (m := n)).toEquiv]
  simp

theorem ncard_regValues (used : Bool) : (regValues used).ncard = if used then 4 else 1 := by
  cases used with
  | true => simpa [regValues] using ncard_univ_bitVec 2
  | false => simp [regValues]

theorem ImmUse.ncard_values (u : ImmUse) : u.values.ncard = u.count := by
  cases u with
  | signed | unsigned => exact (congrArg Set.ncard (Set.eq_univ_of_forall fun _ => rfl)).trans (ncard_univ_bitVec 16)
  | none => simp [ImmUse.values, ImmUse.admits, ImmUse.count]
  | byte =>
    have himage : ImmUse.byte.values = (fun b : BitVec 8 => BitVec.ofNat 16 b.toNat) '' Set.univ := by
      ext x
      constructor
      · exact fun hx => ⟨_, trivial, ImmUse.admits_byte_iff.mp hx⟩
      · rintro ⟨b, -, rfl⟩
        exact ImmUse.admits_byte_ofNat (Nat.le_of_lt_succ b.isLt)
    have hinv : Function.LeftInverse (BitVec.extractLsb' 0 8) fun b : BitVec 8 => BitVec.ofNat 16 b.toNat :=
      fun b => BitVec.eq_of_toNat_eq (toNat_low_imm (Nat.le_of_lt_succ b.isLt))
    rw [himage, Set.ncard_image_of_injective _ hinv.injective, ncard_univ_bitVec 8]
    rfl

/-- The words of a row (R58). -/
def Mnemonic.words (m : Mnemonic) : Set Word := {w | (splitWord w).Legal m}

/-- The word of a row with the given operand fields. -/
def Mnemonic.wordOf (m : Mnemonic) (x : BitVec 2 × BitVec 2 × BitVec 2 × BitVec 16) : Word :=
  joinFields ⟨m.format.op, x.1, x.2.1, x.2.2.1, 0, x.2.2.2⟩

@[simp] theorem Mnemonic.splitWord_wordOf (m : Mnemonic) (x : BitVec 2 × BitVec 2 × BitVec 2 × BitVec 16) :
    splitWord (m.wordOf x) = ⟨m.format.op, x.1, x.2.1, x.2.2.1, 0, x.2.2.2⟩ := splitWord_joinFields _

theorem Mnemonic.wordOf_injective (m : Mnemonic) : Function.Injective m.wordOf := fun x y h => by
  have hfields := congrArg splitWord h
  simpa [Prod.ext_iff] using hfields

/-- R57, R58: a row's words are those of its operand fields, each at any of its values. -/
theorem Mnemonic.words_eq_image (m : Mnemonic) :
    m.words = m.wordOf ''
      (regValues m.format.rd ×ˢ regValues m.format.ra ×ˢ regValues m.format.rb ×ˢ m.format.imm.values) := by
  ext w
  constructor
  · rintro ⟨hop, hobj⟩
    obtain ⟨hz, hrd, hra, hrb, himm⟩ := Format.objection_eq_none_iff.mp hobj
    refine ⟨⟨_, _, _, _⟩, ⟨hrd, hra, hrb, himm⟩, ?_⟩
    rw [Mnemonic.wordOf, ← hop, ← hz, joinFields_splitWord]
  · rintro ⟨x, ⟨hrd, hra, hrb, himm⟩, rfl⟩
    have hlegal : Fields.Legal m ⟨m.format.op, x.1, x.2.1, x.2.2.1, 0, x.2.2.2⟩ :=
      ⟨rfl, Format.objection_eq_none_iff.mpr ⟨rfl, hrd, hra, hrb, himm⟩⟩
    rwa [← m.splitWord_wordOf x] at hlegal

theorem Mnemonic.ncard_words (m : Mnemonic) :
    m.words.ncard = (if m.format.rd then 4 else 1) * ((if m.format.ra then 4 else 1) *
      ((if m.format.rb then 4 else 1) * m.format.imm.count)) := by
  rw [m.words_eq_image, Set.ncard_image_of_injective _ m.wordOf_injective, Set.ncard_prod, Set.ncard_prod,
    Set.ncard_prod, ncard_regValues, ncard_regValues, ncard_regValues, ImmUse.ncard_values]

/-- R58: the opcodes differ, so no word is of two rows. -/
theorem pairwiseDisjoint_words (s : Set Mnemonic) : s.PairwiseDisjoint Mnemonic.words := by
  intro m _ n _ hmn
  refine Set.disjoint_left.mpr fun w hm hn => hmn ?_
  have hop := hm.1.symm.trans hn.1
  have h := Mnemonic.ofOpcode_op m
  rw [hop, Mnemonic.ofOpcode_op] at h
  exact (Option.some.inj h).symm

theorem setOf_decode_mnemonic (m : Mnemonic) : {w : Word | ∃ i, decode w = .ok i ∧ i.mnemonic = m} = m.words :=
  Set.ext fun _ => exists_decode_mnemonic_iff

/-- The words that decode are those of the rows. -/
theorem setOf_decode_eq_biUnion :
    {w : Word | ∃ i, decode w = .ok i} = ⋃ m ∈ (Mnemonic.all.toFinset : Set Mnemonic), m.words := by
  refine Set.ext fun w => exists_decode_ok_iff.trans ?_
  simp [Mnemonic.mem_all, Mnemonic.words]

end Sys2Proof
end

section
/-! The statements of the encoding (30_encoding.md). -/

namespace Sys2Proof

/-- Settles O1: by evaluation of the decoder on each word. -/
theorem workedEncodingsDecode : Obligations.WorkedEncodingsDecode := by
  have hillegal : decode 0x00000000 = .error .unknownOpcode ∧ decode 0x10000001 = .error .nonzeroImmediate ∧
      decode 0x11000100 = .error .nonzeroImmediate ∧ decode 0x13010000 = .error .nonzeroZ ∧
      decode 0x13400000 = .error .nonzeroRegister := by decide
  obtain ⟨h0, h1, h2, h3, h4⟩ := hillegal
  refine ⟨?_, ?_, ?_, ?_, ?_, ?_, ?_, ?_, ?_, ?_, ?_, ?_, ?_, ?_, ?_,
    ⟨_, h0⟩, ⟨_, h1⟩, ⟨_, h2⟩, ⟨_, h3⟩, ⟨_, h4⟩⟩ <;> decide

/-- Settles O2: the fields of a well-formed command are legal and build the command. -/
theorem decodeOfEncode : Obligations.DecodeOfEncode := by
  intro i hi
  rw [decode_eq_ok_iff, encode, splitWord_joinFields]
  exact ⟨i.mnemonic, legal_fields hi, buildInstr_fields hi⟩

/-- Settles O3: a command built from legal fields has those fields. -/
theorem encodeOfDecode : Obligations.EncodeOfDecode := by
  intro w i hi
  obtain ⟨m, hm, rfl⟩ := decode_eq_ok_iff.mp hi
  exact ⟨wf_buildInstr m _, by rw [encode, fields_buildInstr hm, joinFields_splitWord]⟩

/-- Settles O6: the assembler's one test is `wf`, and a well-formed command decodes from its word. -/
theorem assemblerRefusesAndNeverTruncates : Obligations.AssemblerRefusesAndNeverTruncates := by
  intro i
  exact ⟨fun hi => by simp [Machine.assemble, hi],
    fun hi => ⟨encode i, by simp [Machine.assemble, hi], decodeOfEncode i hi⟩⟩

/-- Settles O4: a row's mask and match test is legality of the fields for that row. -/
theorem decodeFollowsTheOpcodeTable : Obligations.DecodeFollowsTheOpcodeTable := by
  intro w
  rw [forall_opcodeTable, forall_opcodeTable, exists_decode_error_iff]
  refine ⟨fun m => and_mask_eq_iff.trans exists_decode_mnemonic_iff.symm, ?_⟩
  simp only [ne_eq, and_mask_eq_iff]

/-- Settles O5: a row has as many words as its operand fields have values together, and no two rows share
a word. -/
theorem legalWordCount : Obligations.LegalWordCount := by
  constructor
  · intro m
    rw [setOf_decode_mnemonic, m.ncard_words]
    cases m <;> rfl
  · rw [setOf_decode_eq_biUnion, Set.Finite.ncard_biUnion (Finset.finite_toSet _) (fun m _ => Set.toFinite m.words)
      (pairwiseDisjoint_words _), finsum_mem_coe_finset]
    simp only [Mnemonic.ncard_words]
    rfl

end Sys2Proof
end

section
/-! The coefficients of the generator polynomial (R109, R112) by the recurrence of the q-binomials: none is
zero below degree 255, so `genpoly` and `rs_ec` complete there (R117). -/

namespace Sys2Proof.Machine

/-! ### Repeated doubling is linear -/

theorem timesPower_xor (a b : Byte) (k : Nat) : timesPower (a ^^^ b) k = timesPower a k ^^^ timesPower b k := by
  induction k with
  | zero => rfl
  | succ k ih => exact (congrArg timesAlpha ih).trans (timesAlpha_xor _ _)

@[simp] theorem timesPower_zero_left (k : Nat) : timesPower 0#8 k = 0#8 := by
  induction k with
  | zero => rfl
  | succ k ih => exact congrArg timesAlpha ih

theorem fieldMul_alphaPow_right (a : Byte) (n : Nat) : fieldMul a (alphaPow n) = timesPower a n := by
  by_cases ha : a = 0
  · rw [ha, fieldMul_zero_left]
    exact (timesPower_zero_left n).symm
  · rw [fieldMul_comm_of_ne_zero ha (alphaPow_ne_zero n), fieldMul_alphaPow_left]

/-- The order of ALPHA: doubling moves a non-zero element until the 255th time. -/
theorem timesPower_ne_self {a : Byte} (ha : a ≠ 0) {k : Nat} (h0 : 0 < k) (h : k < 255) : timesPower a k ≠ a := by
  obtain ⟨i, -, rfl⟩ := exists_alphaPow_eq ha
  intro heq
  rw [← alphaPow_add, Nat.add_comm, alphaPow_add] at heq
  exact alphaPow_ne_one h0 h (timesPower_injective i heq)

/-! ### The coefficients -/

/-- A product with `x - ALPHA^n`, slot by slot: the zero in front stands for the slot before the first. -/
theorem getD_product_linear (a : ByteSeq) (n k : Nat) :
    (product a [1, alphaPow n]).getD k 0 = a.getD k 0 ^^^ timesPower ((0 :: a).getD k 0) n := by
  induction a generalizing k with
  | nil => cases k <;> simp [product_nil_left, zeros]
  | cons x a ih =>
    have hrow : [1, alphaPow n].map (fieldMul x) = [x, timesPower x n] := by
      rw [List.map_cons, List.map_cons, List.map_nil, fieldMul_one, fieldMul_alphaPow_right]
    have hlen : [x, timesPower x n].length ≤ (0 :: product a [1, alphaPow n]).length := by simp
    rw [product_cons (List.cons_ne_nil _ _), hrow, getD_xorFront hlen]
    match k with
    | 0 => simp
    | 1 =>
      simp only [List.getD_cons_succ, List.getD_cons_zero, ih]
      simp [BitVec.xor_comm]
    | k + 2 =>
      simp only [List.getD_cons_succ, List.getD_nil, ih]
      simp

theorem generator_succ (n : Nat) : generator (n + 1) = product (generator n) [1, alphaPow n] := by
  rw [generator, List.range_succ, List.foldl_append]; rfl

theorem generator_length (n : Nat) : (generator n).length = n + 1 := by
  induction n with
  | zero => rfl
  | succ n ih => rw [generator_succ, product_length, ih]; rfl

/-- Coefficient `k` of the generator, counted from 1, and 0 at place 0. -/
def generatorCoeff (n k : Nat) : Byte := (0 :: generator n).getD k 0

theorem generatorCoeff_zero (n : Nat) : generatorCoeff n 0 = 0 := rfl

theorem generatorCoeff_succ_succ (n k : Nat) :
    generatorCoeff (n + 1) (k + 1) = generatorCoeff n (k + 1) ^^^ timesPower (generatorCoeff n k) n := by
  rw [generatorCoeff, List.getD_cons_succ, generator_succ, getD_product_linear]; rfl

theorem generatorCoeff_one (n : Nat) : generatorCoeff n 1 = 1 := by
  induction n with
  | zero => rfl
  | succ n ih => rw [generatorCoeff_succ_succ, ih, generatorCoeff_zero]; simp

/-- The ratio of neighbouring coefficients without a division: `ALPHA^(k+1) - ALPHA` times the one is
`ALPHA^(n+1) - ALPHA^k` times the other. -/
theorem generatorCoeff_ratio (n k : Nat) :
    timesPower (generatorCoeff n (k + 1)) (k + 1) ^^^ timesPower (generatorCoeff n (k + 1)) 1 =
      timesPower (generatorCoeff n k) (n + 1) ^^^ timesPower (generatorCoeff n k) k := by
  induction n generalizing k with
  | zero =>
    match k with
    | 0 => rfl
    | 1 => rfl
    | k + 2 => simp [generatorCoeff, generator]
  | succ n ih =>
    cases k with
    | zero => simp [generatorCoeff_zero]
    | succ k =>
      have hx := ih (k + 1)
      have hy := congrArg (timesPower · (n + 1)) (ih k)
      rw [generatorCoeff_succ_succ n (k + 1), generatorCoeff_succ_succ n k]
      generalize generatorCoeff n (k + 1 + 1) = x, generatorCoeff n (k + 1) = y, generatorCoeff n k = z at *
      simp only [timesPower_xor, ← timesPower_add] at hx hy ⊢
      rw [← BitVec.xor_eq_zero_iff] at hx hy ⊢
      calc _ = _ ^^^ _ := by ac_rfl
        _ = 0#8 ^^^ 0#8 := congrArg₂ (· ^^^ ·) hx hy
        _ = 0#8 := BitVec.xor_self

theorem generatorCoeff_ne_zero {n k : Nat} (hn : n ≤ 254) (hk : k ≤ n) : generatorCoeff n (k + 1) ≠ 0 := by
  induction k with
  | zero => rw [generatorCoeff_one]; decide
  | succ k ih =>
    intro hzero
    have hratio := generatorCoeff_ratio n (k + 1)
    have hsplit : n + 1 = (n - k) + (k + 1) := by omega
    have heq : timesPower (generatorCoeff n (k + 1)) (n + 1) = timesPower (generatorCoeff n (k + 1)) (k + 1) := by
      rw [hzero] at hratio
      exact BitVec.xor_eq_zero_iff.mp (by simpa using hratio.symm)
    rw [hsplit, timesPower_add] at heq
    exact timesPower_ne_self (ih (by omega)) (by omega) (by omega) (timesPower_injective (k + 1) heq)

/-- R112: below degree 255 the generator has no zero coefficient. -/
theorem noZero_generator {n : Nat} (hn : n ≤ 254) : NoZero (generator n) := by
  intro c hc
  obtain ⟨k, hk, rfl⟩ := List.mem_iff_getElem.mp hc
  rw [generator_length] at hk
  have hcoeff := generatorCoeff_ne_zero hn (Nat.le_of_lt_succ hk)
  rwa [generatorCoeff, List.getD_cons_succ, List.getD_eq_getElem] at hcoeff

/-! ### Generation and encoding complete -/

section
variable {t : Tables} (ht : t.Ready .standard)
include ht

/-- R109: the degrees before the last have no zero coefficient, so no product of `genpoly` faults. -/
theorem genpoly_of_ready {n : Nat} (hn : n ≤ 255) : genpoly t n = .ok (generator n) := by
  induction n with
  | zero => rfl
  | succ n ih =>
    have hlinear : NoZero [1, alphaPow n] :=
      List.forall_mem_cons.mpr ⟨by decide, List.forall_mem_singleton.mpr (alphaPow_ne_zero n)⟩
    have hne : generator n ≠ [] := List.ne_nil_of_length_eq_add_one (generator_length n)
    rw [genpoly, ih (by omega), ok_bind, gexp_natCast ht, generator_succ,
      polyMul_of_noZero ht hne (List.cons_ne_nil _ _) (noZero_generator (by omega)) hlinear]

/-- R117: `rs_ec` completes for `n` up to 254. -/
theorem exists_rsEc_eq_ok (data : ByteSeq) {n : Nat} (hn : n ≤ 254) : ∃ ec, rsEc t data n = .ok ec := by
  have hmod : ∃ r, polyMod t (construct data n) (generator n) = .ok r := by
    by_cases hshort : (construct data n).length < (generator n).length
    · exact ⟨_, polyMod_of_short hshort⟩
    · have hne : generator n ≠ [] := List.ne_nil_of_length_eq_add_one (generator_length n)
      obtain ⟨r, hr, -⟩ := polyMod_of_noZero ht (isPoly_construct data n) hne (noZero_generator hn)
        (Nat.le_of_not_lt hshort)
      exact ⟨r, hr⟩
  obtain ⟨r, hr⟩ := hmod
  exact ⟨padLeft n r, by rw [rsEc, genpoly_of_ready ht (by omega), ok_bind, hr]; rfl⟩

end

end Sys2Proof.Machine
end

section
/-! What a list of commands that the host issues does, and the reads between them (R48, R60, R64, R129). -/

namespace Sys2Proof.Machine

/-! ### Runs -/

/-- `k` steps lead from `s` to `t`. -/
def StepsTo (k : Nat) (s t : State) : Prop := ∀ n, core.run (k + n) s = core.run n t

theorem StepsTo.refl (s : State) : StepsTo 0 s s := fun n => by rw [Nat.zero_add]

theorem StepsTo.trans {j k : Nat} {s t u : State} (h : StepsTo j s t) (h' : StepsTo k t u) :
    StepsTo (j + k) s u := fun n => by rw [Nat.add_assoc, h, h']

theorem StepsTo.core_run_eq {k : Nat} {s t : State} (h : StepsTo k s t) : core.run k s = .next t := h 0

theorem stepsTo_of_step {s t : State} (h : step s = .next t) : StepsTo 1 s t := fun n => by
  rw [Nat.add_comm]
  exact core_run_succ h n

/-! ### One command -/

/-- R60: a well-formed command that the host issues is executed inside the write. -/
theorem stepsTo_of_issue {s : State} {i : Instr} {e : Engine} {rest : List HostAction} (hc : LegalConfig s.cfg)
    (hi : i.wf = true) (he : s.engine.command s.cfg i (ruleOf i) = e) (hp : s.pending = issue s.cfg i :: rest) :
    StepsTo 1 s { s with pending := rest, engine := e } := by
  have hcmd := writeCmd_of_decode (decodeOfEncode i hi) { s with pending := rest }
  rw [exec_next, he] at hcmd
  exact stepsTo_of_step ((step_of_writes hc hp).trans hcmd)

theorem construct_eq_shifted (s : ByteSeq) (k : Nat) : construct s k = shifted s k := strip_eq_dropWhile _

/-- The engine after a command whose rule completes (R60 step 5). -/
theorem Engine.command_of_ok {c : Config} {i : Instr} {e e' : Engine} (hf : e.faulted = false)
    (ha : c.admits i = true) (hr : ruleOf i c (e.prologue c.field i) = .ok e') :
    e.command c i (ruleOf i) = e' := by
  simp [Engine.command, hf, ha, hr, Engine.finish]

section
variable {c : Config} {e : Engine} (hf : e.faulted = false)
include hf

theorem command_sclr : e.command c .sclr (ruleOf .sclr) = e.setSb [] := Engine.command_of_ok hf rfl rfl

theorem command_spush_of_lt {b : Nat} (h : e.sb.length < c.smax) :
    e.command c (.spush b) (ruleOf (.spush b)) = e.setSb (e.sb ++ [BitVec.ofNat 8 b]) :=
  Engine.command_of_ok hf rfl (if_neg h.ne)

theorem command_pnew_of_le {rd : PReg} {k : Nat} (hr : c.has rd = true) (h : (shifted e.sb k).length ≤ c.pmax) :
    e.command c (.pnew rd k) (ruleOf (.pnew rd k)) = e.setPoly rd (shifted e.sb k) := by
  refine Engine.command_of_ok hf (by simp [Config.admits, Instr.regs, hr]) ?_
  rw [Engine.prologue_of_not_uses rfl, ruleOf, rulePnew, construct_eq_shifted, checkLength_of_le h]
  rfl

theorem command_eget_of_lt {k : Nat} (h : k < e.eb.length) :
    e.command c (.eget k) (ruleOf (.eget k)) = e.setRes (wordOfByte e.eb[k]) := by
  refine Engine.command_of_ok hf rfl ?_
  rw [Engine.prologue_of_not_uses rfl, ruleOf, ruleEget, element_of_lt h]
  rfl

end

theorem command_rsenc_of_ok {s : State} {n : Nat} {ec : ByteSeq} (hs : Live s) (hgen : n + 1 ≤ s.cfg.pmax)
    (hlen : (shifted s.engine.sb n).length ≤ s.cfg.pmax) (hcap : n ≤ s.cfg.emax)
    (hec : rsEc (s.engine.tables.fill s.cfg.field) s.engine.sb n = .ok ec) :
    s.engine.command s.cfg (.rsenc n) (ruleOf (.rsenc n)) = (s.engine.afterInit s.cfg.field).setEb ec := by
  refine Engine.command_of_ok hs.2 rfl ?_
  rw [Engine.prologue_of_inv hs.1 rfl, ruleOf, ruleRsenc, Engine.afterInit_sb, Engine.afterInit_tables,
    construct_eq_shifted, checkLength_of_le hgen, checkLength_of_le hlen, checkLength_of_le hcap, hec]
  rfl

/-! ### The lists of R64 and R129 -/

/-- The pushes of a sequence (R64). -/
def pushActions (c : Config) (data : ByteSeq) : List HostAction := data.map fun b => issue c (.spush b.toNat)

/-- `SLOAD` of a sequence (R64). -/
def sloadActions (c : Config) (data : ByteSeq) : List HostAction := issue c .sclr :: pushActions c data

/-- The EGETs and reads of R129 for `m` places from `j` on. -/
def egetActions (c : Config) (j m : Nat) : List HostAction :=
  (List.range' j m).flatMap fun k => [issue c (.eget k), readRes c]

theorem map_issue_sload (c : Config) (data : ByteSeq) :
    (sload (data.map (·.toNat))).map (issue c) = sloadActions c data := by
  simp [sload, sloadActions, pushActions]

theorem sloadActions_length (c : Config) (data : ByteSeq) : (sloadActions c data).length = 1 + data.length := by
  simp [sloadActions, pushActions, Nat.add_comm]

theorem egetActions_succ (c : Config) (j m : Nat) :
    egetActions c j (m + 1) = issue c (.eget j) :: readRes c :: egetActions c (j + 1) m := rfl

theorem egetActions_length (c : Config) (j m : Nat) : (egetActions c j m).length = 2 * m := by
  simp [egetActions, List.length_flatMap, Nat.mul_comm]

/-- R129: a block's actions load its data, encode it, and read the EC codewords. -/
theorem blockActions_eq (c : Config) (data : ByteSeq) (n : Nat) :
    blockActions c data n = sloadActions c data ++ (issue c (.rsenc n) :: egetActions c 0 n) := by
  rw [blockActions, rsblock, List.map_append, map_issue_sload, List.append_assoc, List.range_eq_range']
  rfl

/-- R64: `PLOAD`'s actions load its data and construct. -/
theorem map_issue_pload (c : Config) (rd : PReg) (k : Nat) (data : ByteSeq) :
    (pload rd k (data.map (·.toNat))).map (issue c) = sloadActions c data ++ [issue c (.pnew rd k)] := by
  rw [pload, List.map_append, map_issue_sload]
  rfl

section
variable {s : State} {rest : List HostAction} (hc : LegalConfig s.cfg) (hf : s.engine.faulted = false)
include hc hf

/-- R29, R89: the bytes of a sequence, pushed one after the other. -/
theorem stepsTo_pushes {data : ByteSeq} (hlen : s.engine.sb.length + data.length ≤ s.cfg.smax)
    (hp : s.pending = pushActions s.cfg data ++ rest) :
    StepsTo data.length s { s with pending := rest, engine := s.engine.setSb (s.engine.sb ++ data) } := by
  induction data generalizing s with
  | nil =>
    obtain rfl : s.pending = rest := hp
    rw [List.append_nil]
    exact StepsTo.refl s
  | cons b data ih =>
    rw [List.length_cons] at hlen ⊢
    have hwf : Instr.wf (.spush b.toNat) = true := decide_eq_true (Nat.le_of_lt_succ b.isLt)
    have hpush := command_spush_of_lt (c := s.cfg) (b := b.toNat) hf (by omega)
    rw [BitVec.ofNat_toNat, BitVec.setWidth_eq] at hpush
    have hrest := ih (s := { s with
      pending := pushActions s.cfg data ++ rest
      engine := s.engine.setSb (s.engine.sb ++ [b]) }) hc hf
      (by simp only [Engine.setSb_sb, List.length_append, List.length_singleton]; omega) rfl
    rw [Engine.setSb_sb, List.append_assoc, List.singleton_append] at hrest
    rw [Nat.add_comm]
    exact (stepsTo_of_issue hc hwf hpush hp).trans hrest

/-- R64: `SLOAD` leaves the data in `SB`, whatever was there. -/
theorem stepsTo_sload {data : ByteSeq} (hlen : data.length ≤ s.cfg.smax)
    (hp : s.pending = sloadActions s.cfg data ++ rest) :
    StepsTo (sloadActions s.cfg data).length s { s with pending := rest, engine := s.engine.setSb data } := by
  have hfit : ([] : ByteSeq).length + data.length ≤ s.cfg.smax := by simpa using hlen
  have hpush := stepsTo_pushes (rest := rest)
    (s := { s with pending := pushActions s.cfg data ++ rest, engine := s.engine.setSb [] }) hc hf hfit rfl
  rw [sloadActions_length]
  exact (stepsTo_of_issue hc rfl (command_sclr hf) hp).trans hpush

/-- R124, R129: EGET and a read of `RES` return one byte of `EB`. -/
theorem stepsTo_eget {j : Nat} (hj : j < s.engine.eb.length) (hmax : j ≤ 65535)
    (hp : s.pending = issue s.cfg (.eget j) :: readRes s.cfg :: rest) :
    StepsTo 2 s { s with
      pending := rest
      engine := s.engine.setRes (wordOfByte s.engine.eb[j])
      returned := s.returned ++ [wordOfByte s.engine.eb[j]] } := by
  have hwf : Instr.wf (.eget j) = true := decide_eq_true hmax
  have hread := step_of_read_slot (k := 2) (rest := rest) (s := { s with
    pending := readRes s.cfg :: rest
    engine := s.engine.setRes (wordOfByte s.engine.eb[j]) }) hc (by decide) rfl
  exact (stepsTo_of_issue hc hwf (command_eget_of_lt hf hj) hp).trans (stepsTo_of_step hread)

/-- R129: the bytes of `EB` from place `j` on, each got by EGET and a read of `RES`. -/
theorem stepsTo_egets {j m : Nat} (hlen : s.engine.eb.length = j + m) (hmax : s.engine.eb.length ≤ 65536)
    (hp : s.pending = egetActions s.cfg j m ++ rest) :
    ∃ w, StepsTo (2 * m) s { s with
      pending := rest
      engine := s.engine.setRes w
      returned := s.returned ++ (s.engine.eb.drop j).map wordOfByte } := by
  induction m generalizing s j with
  | zero =>
    obtain rfl : s.pending = rest := hp
    have hnone : s.engine.eb.drop j = [] := List.drop_eq_nil_of_le (by omega)
    rw [hnone, List.map_nil, List.append_nil]
    exact ⟨s.engine.res, StepsTo.refl s⟩
  | succ m ih =>
    have hj : j < s.engine.eb.length := by omega
    have hfirst := stepsTo_eget hc hf hj (by omega) hp
    obtain ⟨w, hrest⟩ := ih (j := j + 1) (s := { s with
      pending := egetActions s.cfg (j + 1) m ++ rest
      engine := s.engine.setRes (wordOfByte s.engine.eb[j])
      returned := s.returned ++ [wordOfByte s.engine.eb[j]] }) hc hf (hlen.trans (by omega)) hmax rfl
    have hcount : 2 * (m + 1) = 2 + 2 * m := by omega
    rw [hcount, List.drop_eq_getElem_cons hj, List.map_cons, List.append_cons]
    exact ⟨w, hfirst.trans hrest⟩

end

/-- The staging buffer may hold anything that fits. -/
theorem Live.setSb {s : State} (h : Live s) {data : ByteSeq} (hlen : data.length ≤ s.cfg.smax) :
    Live { s with engine := s.engine.setSb data } :=
  ⟨{ h.1 with sbLength := hlen }, h.2⟩

/-- R129: the actions for one block leave its data in `SB` and its EC codewords in `EB`, and return the
EC codewords. -/
theorem stepsTo_blockActions {s : State} {data ec : ByteSeq} {n : Nat} {rest : List HostAction} (hs : Live s)
    (hn : n ≤ 255) (hcap : n ≤ s.cfg.emax) (hsb : data.length ≤ s.cfg.smax) (hgen : n + 1 ≤ s.cfg.pmax)
    (hlen : (shifted data n).length ≤ s.cfg.pmax)
    (hec : rsEc (s.engine.tables.fill s.cfg.field) data n = .ok ec)
    (hp : s.pending = blockActions s.cfg data n ++ rest) :
    ∃ w, StepsTo (blockActions s.cfg data n).length s { s with
      pending := rest
      engine := (((s.engine.setSb data).afterInit s.cfg.field).setEb ec).setRes w
      returned := s.returned ++ ec.map wordOfByte } := by
  have hwf : Instr.wf (.rsenc n) = true := decide_eq_true hn
  have heb : ec.length = n := rsEc_length (afterInit_ready hs.1) hec
  have hf : (((s.engine.setSb data).afterInit s.cfg.field).setEb ec).faulted = false :=
    (statusReady_bit1 s.engine.status).trans hs.2
  have hencode := command_rsenc_of_ok (hs.setSb hsb) hgen hlen hcap hec
  rw [blockActions_eq] at hp ⊢
  rw [List.append_assoc] at hp
  rw [List.length_append, List.length_cons, egetActions_length, Nat.add_comm (2 * n)]
  have hload := stepsTo_sload hs.1.legal hs.2 hsb hp
  have hrsenc := stepsTo_of_issue (rest := egetActions s.cfg 0 n ++ rest) (s := { s with
    pending := issue s.cfg (.rsenc n) :: (egetActions s.cfg 0 n ++ rest)
    engine := s.engine.setSb data }) hs.1.legal hwf hencode rfl
  obtain ⟨w, hread⟩ := stepsTo_egets (j := 0) (m := n) (rest := rest) (s := { s with
    pending := egetActions s.cfg 0 n ++ rest
    engine := ((s.engine.setSb data).afterInit s.cfg.field).setEb ec }) hs.1.legal hf
    (heb.trans (Nat.zero_add n).symm) (heb.trans_le (by omega)) rfl
  exact ⟨w, hload.trans (hrsenc.trans hread)⟩

end Sys2Proof.Machine
end

section
/-! The statements of the illegal words, of the fault state and of the host's procedures. -/

namespace Sys2Proof.Machine

/-- Settles O9: a word of no row is rejected by the decoder, and fault entry from a live state adds to
`STATUS` the bits of IllegalCommand. -/
theorem illegalWordRaisesIllegalCommand : Obligations.IllegalWordRaisesIllegalCommand := by
  intro s w rest hs hw hrows
  obtain ⟨r, hr⟩ := (decodeFollowsTheOpcodeTable w).2.mp hrows
  rw [step_of_writes hs.1.legal hw, writeCmd, if_neg (by simp [hs.2]), hr]
  simp only [Engine.enterFault_of_live hs]
  rfl

/-- Settles O10: both the write to `CMD` and every command test `FAULT` first. -/
theorem faultStateIgnoresCommands : Obligations.FaultStateIgnoresCommands := by
  refine ⟨fun s w rest hc hf hw => ?_, fun s i hf => ?_⟩
  · rw [step_of_writes hc hw, writeCmd, if_pos hf]
  · rw [exec_eq_command, command_of_faulted hf]

/-- Settles O57: `SLOAD`, then PNEW's construction. -/
theorem ploadConstructsItsOperand : Obligations.PloadConstructsItsOperand := by
  intro s rd k data rest hs hr hk hsb hlen hp
  have hwf : Instr.wf (.pnew rd k) = true := decide_eq_true hk
  have hpnew := command_pnew_of_le (e := s.engine.setSb data) hs.2 hr hlen
  have hconstruct := stepsTo_of_issue (rest := rest) (s := { s with
    pending := issue s.cfg (.pnew rd k) :: rest
    engine := s.engine.setSb data }) hs.1.legal hwf hpnew rfl
  rw [map_issue_pload, List.append_assoc] at hp
  rw [← List.length_map (issue s.cfg), map_issue_pload, List.length_append]
  exact ((stepsTo_sload hs.1.legal hs.2 hsb hp).trans hconstruct).core_run_eq

/-- Settles O56: the EC codewords exist below degree 255, and the block's actions leave and return them. -/
theorem blockProcedureReturnsTheEcCodewords : Obligations.BlockProcedureReturnsTheEcCodewords := by
  intro s data n rest hs hn hcap hsb hgen hlen hp
  obtain ⟨ec, hec⟩ := exists_rsEc_eq_ok (afterInit_ready hs.1) data hn
  obtain ⟨w, hrun⟩ := stepsTo_blockActions hs (by omega) hcap hsb hgen hlen hec hp
  exact ⟨ec, _, hec, hrun.core_run_eq, rfl, rfl, rfl, rfl, rfl, (statusReady_bit1 s.engine.status).trans hs.2⟩

end Sys2Proof.Machine
end

section
/-! The words of the commands with a signed immediate (R56, R59), where R77's loops end, and GLOG and GEXP
as whole next states (R80, R81). -/

namespace Sys2Proof

/-! ### Signed immediates -/

/-- Bitwise disjunction works on each field by itself. -/
theorem splitWord_or (w v : Word) :
    splitWord (w ||| v) = ⟨(splitWord w).op ||| (splitWord v).op, (splitWord w).rd ||| (splitWord v).rd,
      (splitWord w).ra ||| (splitWord v).ra, (splitWord w).rb ||| (splitWord v).rb,
      (splitWord w).z ||| (splitWord v).z, (splitWord w).imm ||| (splitWord v).imm⟩ := by
  simp only [splitWord, BitVec.extractLsb'_or]

theorem splitWord_low_half (w : Word) : splitWord (w &&& 0xFFFF) = ⟨0, 0, 0, 0, 0, (splitWord w).imm⟩ := by
  have hmask : splitWord 0xFFFF = ⟨0, 0, 0, 0, 0, BitVec.allOnes 16⟩ := by decide
  rw [splitWord_and, hmask, BitVec.and_allOnes]
  simp

theorem splitWord_ofInt_imm (n : Int) : (splitWord (BitVec.ofInt 32 n)).imm = BitVec.ofInt 16 n := by
  apply BitVec.eq_of_toNat_eq
  rw [splitWord, BitVec.extractLsb'_toNat, BitVec.toNat_ofInt, BitVec.toNat_ofInt, Nat.shiftRight_zero]
  omega

/-- R59: the word of a row with a signed immediate, from the low half of the two's-complement form. -/
theorem joinFields_ofInt_imm (t : Format) (n : Int) :
    joinFields ⟨t.op, 0, 0, 0, 0, BitVec.ofInt 16 n⟩ = t.word ||| (BitVec.ofInt 32 n &&& 0xFFFF) := by
  apply splitWord_injective
  rw [splitWord_or, splitWord_low_half, splitWord_ofInt_imm, Format.word]
  simp

/-- R59: such a word decodes to the command whose immediate it holds. -/
theorem decode_signed_word {i : Instr} {n : Int} {w : Word} (hi : i.wf = true)
    (hfields : i.fields = ⟨i.mnemonic.format.op, 0, 0, 0, 0, BitVec.ofInt 16 n⟩)
    (hw : i.mnemonic.format.word = w) : decode (w ||| (BitVec.ofInt 32 n &&& 0xFFFF)) = .ok i := by
  rw [← hw, ← joinFields_ofInt_imm, ← hfields]
  exact decodeOfEncode i hi

end Sys2Proof

namespace Sys2Proof.Machine

/-! ### Normalisation (R77) -/

theorem addLoop_of_nonneg {n : Int} (h : 0 ≤ n) (k : Nat) : addLoop k n = n := by
  cases k with
  | zero => rfl
  | succ k => exact if_neg (Int.not_lt.mpr h)

theorem subLoop_of_le {n : Int} (h : n ≤ 255) (k : Nat) : subLoop k n = n := by
  cases k with
  | zero => rfl
  | succ k => exact if_neg (by omega)

theorem subLoop_pos {n : Int} (h : 0 < n) (k : Nat) : 0 < subLoop k n := by
  induction k generalizing n with
  | zero => exact h
  | succ k ih =>
    rw [subLoop]
    split
    · exact ih (by omega)
    · exact h

/-- The first loop leaves a positive number alone, and the second never takes one down to 0. -/
theorem normalise_pos {n : Int} (h : 0 < n) : 0 < normalise n := by
  rw [normalise, addLoop_of_nonneg h.le]
  exact subLoop_pos h _

/-- The first loop ends below 255 on numbers up to 0, so that the second makes no pass. -/
theorem normalise_le_of_nonpos {n : Int} (h : n ≤ 0) : normalise n ≤ 254 := by
  obtain ⟨-, hle, -⟩ := addLoop_spec (k := n.natAbs) (n := n) (by omega)
  rw [normalise, subLoop_of_le (by omega)]
  omega

theorem normalise_eq_255_iff (n : Int) : normalise n = 255 ↔ 0 < n ∧ n % 255 = 0 := by
  obtain ⟨-, hle, hmod⟩ := normalise_spec n
  constructor
  · intro h
    have hpos : ¬ n ≤ 0 := fun hn => by
      have := normalise_le_of_nonpos hn
      omega
    omega
  · rintro ⟨hpos, hzero⟩
    have := normalise_pos hpos
    omega

/-! ### GLOG and GEXP -/

/-- A table user whose rule raises a fault over filled tables (R60, R140). -/
theorem exec_of_live_of_error {i : Instr} {s : State} {c : Cause} {w : Word} (hs : Live s) (ha : s.cfg.admits i = true)
    (hu : usesTables i = true) (hr : ruleOf i s.cfg (s.engine.afterInit s.cfg.field) = .error ⟨c, w⟩) :
    exec i s = nextEngine s
      ((s.engine.afterInit s.cfg.field).recordFault (0x1 ||| faultBits c) (encode i) w) := by
  have hinit := Engine.prologue_of_inv hs.1 hu
  rw [← hinit] at hr
  rw [exec_eq_command, command_of_error hs.2 ha hr, hinit, Engine.enterFault_afterInit_of_live hs]

section
variable {s : State} (hs : Live s)
include hs

/-- R80: GLOG of a power of ALPHA gives the exponent. -/
theorem exec_glog_alphaPow {i : Nat} (hi : i < 255) :
    exec (.glog (alphaPow i).toNat) s =
      nextEngine s ((s.engine.afterInit s.cfg.field).setRes (BitVec.ofNat 32 i)) := by
  refine exec_of_live_of_ok hs rfl rfl ?_
  rw [ruleOf, ruleGlog, glog_alphaPow (afterInit_ready hs.1) hi]
  rfl

/-- R80: GLOG of an integer that is no non-zero element raises DomainError. -/
theorem exec_glog_of_out {n : Int} (h : n < 1 ∨ 255 < n) :
    exec (.glog n) s = nextEngine s
      ((s.engine.afterInit s.cfg.field).recordFault 0x13 (encode (.glog n)) (BitVec.ofInt 32 n)) := by
  have hrule : ruleOf (.glog n) s.cfg (s.engine.afterInit s.cfg.field) =
      .error ⟨.domainError, BitVec.ofInt 32 n⟩ := by
    rw [ruleOf, ruleGlog, glog_of_out h, error_bind]
    rfl
  have hstatus : 0x1 ||| faultBits .domainError = 0x13 := by decide
  rw [exec_of_live_of_error hs rfl rfl hrule, hstatus]

/-- R81: GEXP gives the power of ALPHA. -/
theorem exec_gexp (n : Int) :
    exec (.gexp n) s = nextEngine s
      ((s.engine.afterInit s.cfg.field).setRes (wordOfByte (alphaPow (n % 255).toNat))) := by
  refine exec_of_live_of_ok hs rfl rfl ?_
  rw [ruleOf, ruleGexp, gexp_of_ready (afterInit_ready hs.1)]

theorem exec_gexp_natCast (k : Nat) :
    exec (.gexp k) s =
      nextEngine s ((s.engine.afterInit s.cfg.field).setRes (wordOfByte (alphaPow k))) := by
  have hnat : ((k : Int) % 255).toNat = k % 255 := by omega
  rw [exec_gexp hs, hnat, alphaPow_mod]

/-- What the host sees of such a GLOG: the engine stays live, and the exponent fits in `RES`. -/
theorem exec_glog_alphaPow_live {i : Nat} (hi : i < 255) :
    ∃ t, exec (.glog (alphaPow i).toNat) s = .next t ∧ Live t ∧ t.engine.res.toNat = i := by
  have hexec := exec_glog_alphaPow hs hi
  have hfaulted := (statusReady_bit1 s.engine.status).trans hs.2
  exact ⟨_, hexec, ⟨hs.1.exec hexec, hfaulted⟩, Nat.mod_eq_of_lt (by omega)⟩

end

end Sys2Proof.Machine
end

section
/-! The statements of the scalar field functions and of GLOG and GEXP (40_field_scalar.md). -/

namespace Sys2Proof.Machine

/-- Settles O32: the sign of `n` decides between 0 and 255 where R77's loops end at a multiple of 255, and
ready tables hold a power of ALPHA at every index. -/
theorem normalisationLandsInTheTable : Obligations.NormalisationLandsInTheTable := by
  intro n
  obtain ⟨hnonneg, hle, hmod⟩ := normalise_spec n
  refine ⟨hnonneg, hle, hmod, normalise_eq_255_iff n, fun t ht => ⟨rfl, ?_, ?_, ?_⟩⟩
  · rw [gexp_of_ready ht]
    exact alphaPow_ne_zero _
  · rw [ht.exp_getD le_rfl]
    exact alphaPow_periodic 0
  · exact ht.exp_getD (Nat.zero_le 255)

/-- Settles O34: every number from 1 to 255 is one power of ALPHA below the 255th, and `glog` refuses any
other number. -/
theorem glogGivesTheLogarithmOrFaults : Obligations.GlogGivesTheLogarithmOrFaults := by
  have hword : Mnemonic.glog.format.word = 0x01000000 := by decide
  refine ⟨fun n h1 h2 => decode_signed_word (i := .glog n) (decide_eq_true ⟨h1, h2⟩) rfl hword,
    fun s n hs h1 h2 => ?_, fun s n hs h => exec_glog_of_out hs h⟩
  obtain ⟨l, hl, rfl⟩ := exists_alphaPow_toNat_eq h1 h2
  rw [BitVec.ofNat_toNat, BitVec.setWidth_eq]
  exact ⟨l, Nat.le_of_lt_succ hl, rfl, fun l' hl' h => alphaPow_injOn (Nat.lt_succ_of_le hl') hl h,
    exec_glog_alphaPow hs hl⟩

/-- Settles O35: `gexp` over filled tables is the power, for every integer. -/
theorem gexpGivesThePower : Obligations.GexpGivesThePower := by
  have hword : Mnemonic.gexp.format.word = 0x02000000 := by decide
  exact ⟨fun n h1 h2 => decode_signed_word (i := .gexp n) (decide_eq_true ⟨h1, h2⟩) rfl hword,
    fun _ n hs => exec_gexp hs n⟩

/-- Settles O36: two exponents, each small enough for `RES`, and the power of their sum. -/
theorem hostComputesAFieldProduct : Obligations.HostComputesAFieldProduct := by
  intro s a b hs ha1 ha2 hb1 hb2
  obtain ⟨i, hi, rfl⟩ := exists_alphaPow_toNat_eq ha1 ha2
  obtain ⟨j, hj, rfl⟩ := exists_alphaPow_toNat_eq hb1 hb2
  obtain ⟨s1, hexec1, hs1, hres1⟩ := exec_glog_alphaPow_live hs hi
  obtain ⟨s2, hexec2, hs2, hres2⟩ := exec_glog_alphaPow_live hs1 hj
  have hexec3 : exec (.gexp (s1.engine.res.toNat + s2.engine.res.toNat)) s2 =
      nextEngine s2 ((s2.engine.afterInit s2.cfg.field).setRes (wordOfByte (alphaPow (i + j)))) := by
    rw [hres1, hres2, ← Nat.cast_add, exec_gexp_natCast hs2]
  refine ⟨s1, s2, _, hexec1, hexec2, hexec3, by omega, ?_⟩
  rw [BitVec.ofNat_toNat, BitVec.ofNat_toNat, BitVec.setWidth_eq, BitVec.setWidth_eq, fieldMul_alphaPow]
  rfl

end Sys2Proof.Machine
end

section
/-! The words of the commands with an unsigned immediate (R56, R59), the lengths of constructed polynomials
(R87, R90), and the commands that use no tables as whole next states (R60, R88 to R92, R123). -/

namespace Sys2Proof

/-! ### Unsigned immediates -/

/-- A word with the fields that the encoder gives a command decodes to that command. -/
theorem decode_of_splitWord_eq {w : Word} {i : Instr} (hi : i.wf = true) (hw : splitWord w = i.fields) :
    decode w = .ok i := by
  rw [← joinFields_splitWord w, hw]
  exact decodeOfEncode i hi

/-- R56: a number of 16 bits lies in the immediate and nowhere else. -/
theorem splitWord_ofNat {k : Nat} (hk : k ≤ 65535) :
    splitWord (BitVec.ofNat 32 k) = ⟨0, 0, 0, 0, 0, BitVec.ofNat 16 k⟩ := by
  have hword : (BitVec.ofNat 32 k).toNat = k := Nat.mod_eq_of_lt (by omega)
  have himm : (BitVec.ofNat 32 k).extractLsb' 0 16 = BitVec.ofNat 16 k := by
    apply BitVec.eq_of_toNat_eq
    rw [BitVec.extractLsb'_toNat, hword, toNat_imm hk, Nat.shiftRight_zero]
    omega
  have hhigh (start len : Nat) (h : 16 ≤ start) : (BitVec.ofNat 32 k).extractLsb' start len = 0 := by
    have hshift : k >>> start = 0 :=
      Nat.shiftRight_eq_zero _ _ (by have := Nat.pow_le_pow_right Nat.two_pos h; omega)
    apply BitVec.eq_of_toNat_eq
    rw [BitVec.extractLsb'_toNat, hword, hshift]
    exact Nat.zero_mod _
  rw [splitWord, himm, hhigh 24 8 (by decide), hhigh 22 2 (by decide), hhigh 20 2 (by decide),
    hhigh 18 2 (by decide), hhigh 16 2 (by decide)]

/-- R59: the rest of a command's word, joined with its unsigned immediate, decodes to the command. -/
theorem decode_unsigned_word {i : Instr} {k : Nat} {w : Word} (hi : i.wf = true) (hk : k ≤ 65535)
    (himm : i.fields.imm = BitVec.ofNat 16 k) (hw : splitWord w = { i.fields with imm := 0 }) :
    decode (w ||| BitVec.ofNat 32 k) = .ok i := by
  refine decode_of_splitWord_eq hi ?_
  rw [splitWord_or, splitWord_ofNat hk, hw, ← himm]
  simp [-Instr.fields_op]

end Sys2Proof

namespace Sys2Proof.Machine

/-! ### Construction (R85, R87) -/

theorem shifted_of_all_zero {s : ByteSeq} (h : ∀ c ∈ s, c = 0) (k : Nat) : shifted s k = [] := by
  rw [← construct_eq_shifted, construct]
  refine strip_of_all_zero fun c hc => ?_
  rcases List.mem_append.mp hc with hs | hz
  · exact h c hs
  · exact List.eq_of_mem_replicate hz

/-- The leading zeros of a sequence that has a non-zero element lie before the zeros appended to it. -/
theorem shifted_of_exists_ne_zero {s : ByteSeq} (h : ∃ c ∈ s, c ≠ 0) (k : Nat) :
    shifted s k = s.dropWhile (· == 0) ++ List.replicate k 0 := by
  obtain ⟨c, hc, hne⟩ := h
  have hne' : s.dropWhile (· == 0) ≠ [] := fun hnil =>
    hne (beq_iff_eq.mp (List.dropWhile_eq_nil_iff.mp hnil c hc))
  rw [shifted, List.dropWhile_append, if_neg (by simpa using hne')]

theorem length_dropWhile_eq (p : Byte → Bool) (s : ByteSeq) :
    (s.dropWhile p).length = s.length - (s.takeWhile p).length := by
  have h := congrArg List.length (List.takeWhile_append_dropWhile (p := p) (l := s))
  rw [List.length_append] at h
  omega

/-! ### Commands that use no tables -/

theorem Config.admits_of_regs_eq {c : Config} {i : Instr} {r : PReg} (hi : i.regs = [r]) (hr : c.has r = true) :
    c.admits i = true := by
  rw [Config.admits, hi, List.all_cons, hr, List.all_nil, Bool.and_self]

/-- A command that uses no tables, when its rule completes (R60). -/
theorem exec_of_not_uses_of_ok {i : Instr} {s : State} {e : Engine} (hf : s.engine.faulted = false)
    (hr : ruleOf i s.cfg s.engine = .ok e) (ha : s.cfg.admits i = true) (hu : usesTables i = false) :
    exec i s = nextEngine s e := by
  rw [← Engine.prologue_of_not_uses (fp := s.cfg.field) (e := s.engine) hu] at hr
  rw [exec_eq_command, command_of_ok hf ha hr]

/-- A command that uses no tables, when its rule raises a fault (R60, R140). -/
theorem exec_of_not_uses_of_error {i : Instr} {s : State} {r : Raise} (hs : Live s)
    (hr : ruleOf i s.cfg s.engine = .error r) (ha : s.cfg.admits i = true) (hu : usesTables i = false) :
    exec i s = nextEngine s
      (s.engine.recordFault (s.engine.status ||| faultBits r.cause) (encode i) r.info) := by
  have hprologue := Engine.prologue_of_not_uses (fp := s.cfg.field) (e := s.engine) hu
  rw [← hprologue] at hr
  rw [exec_eq_command, command_of_error hs.2 ha hr, hprologue, Engine.enterFault_of_live hs]

theorem ruleOf_spush_of_full {b : Nat} {c : Config} {e : Engine} (h : e.sb.length = c.smax) :
    ruleOf (.spush b) c e = .error (Raise.length (c.smax + 1)) := if_pos h

theorem ruleOf_pnew_of_gt {rd : PReg} {k : Nat} {c : Config} {e : Engine} (h : c.pmax < (shifted e.sb k).length) :
    ruleOf (.pnew rd k) c e = .error (Raise.length (shifted e.sb k).length) := by
  rw [ruleOf, rulePnew, construct_eq_shifted, checkLength_of_gt h, error_bind]

theorem ruleOf_pget_of_lt {ra : PReg} {k : Nat} {c : Config} {e : Engine} (h : k < (e.p.read ra).length) :
    ruleOf (.pget ra k) c e = .ok (e.setRes (wordOfByte (e.p.read ra)[k])) := by
  rw [ruleOf, rulePget, element_of_lt h]
  rfl

theorem ruleOf_pget_of_ge {ra : PReg} {k : Nat} {c : Config} {e : Engine} (h : (e.p.read ra).length ≤ k) :
    ruleOf (.pget ra k) c e = .error (Raise.index k) := by
  rw [ruleOf, rulePget, element_of_ge h, error_bind]

end Sys2Proof.Machine
end

section
/-! The statements of polynomial construction and reading (41_poly_construct.md). -/

namespace Sys2Proof.Machine

/-- Settles O37: the strip removes leading zeros of `s` alone when `s` has a non-zero element, and all of
it when it has none. -/
theorem constructDropsLeadingZeros : Obligations.ConstructDropsLeadingZeros := by
  intro s k
  refine ⟨construct_eq_shifted s k, isPoly_construct s k, fun hzero => ?_, fun hne => ?_⟩
  · rw [construct_eq_shifted, shifted_of_all_zero hzero]
  · rw [construct_eq_shifted, shifted_of_exists_ne_zero hne, List.length_append, List.length_replicate,
      length_dropWhile_eq]

/-- Settles O39: the rule of SPUSH tests for the full buffer only. -/
theorem spushAppendsOrFaults : Obligations.SpushAppendsOrFaults := by
  refine ⟨fun b hb => ?_, fun s b hs _ => ⟨fun hroom => ?_, fun hfull => ?_⟩⟩
  · exact decode_unsigned_word (i := .spush b) (decide_eq_true hb) (by omega) rfl rfl
  · rw [exec_next, command_spush_of_lt hs.2 hroom]
    rfl
  · exact exec_of_not_uses_of_error hs (ruleOf_spush_of_full hfull) rfl rfl

/-- Settles O40: the length that PNEW tests is that of the polynomial it would write. -/
theorem pnewConstructsOrFaults : Obligations.PnewConstructsOrFaults := by
  refine ⟨fun rd k hk => ?_, fun s rd k hs hr => ⟨fun hfits => ?_, fun hlong => ?_⟩⟩
  · exact decode_unsigned_word (i := .pnew rd k) (decide_eq_true hk) hk rfl (by cases rd <;> rfl)
  · rw [exec_next, command_pnew_of_le hs.2 hr hfits]
    rfl
  · exact exec_of_not_uses_of_error hs (ruleOf_pnew_of_gt hlong) (Config.admits_of_regs_eq rfl hr) rfl

/-- Settles O42: PGET reads the register's element or raises the fault of a missing one. -/
theorem pgetReadsOrFaults : Obligations.PgetReadsOrFaults := by
  refine ⟨fun ra k hk => ?_, fun s ra k hs hr => ⟨fun hlt => ?_, fun hge => ?_⟩⟩
  · exact decode_unsigned_word (i := .pget ra k) (decide_eq_true hk) hk rfl (by cases ra <;> rfl)
  · exact exec_of_not_uses_of_ok hs.2 (ruleOf_pget_of_lt hlt) (Config.admits_of_regs_eq rfl hr) rfl
  · exact exec_of_not_uses_of_error hs (ruleOf_pget_of_ge hge) (Config.admits_of_regs_eq rfl hr) rfl

/-- Settles O38: the rule of SCLR has no test. -/
theorem sclrEmptiesTheStagingBuffer : Obligations.SclrEmptiesTheStagingBuffer := by
  refine ⟨decode_of_splitWord_eq rfl (by decide), fun s hf => ?_⟩
  rw [exec_next, command_sclr hf]
  rfl

/-- Settles O41: PLEN needs its register only, and ELEN nothing. -/
theorem lengthsAreRead : Obligations.LengthsAreRead := by
  refine ⟨fun ra => decode_of_splitWord_eq rfl (by cases ra <;> rfl), decode_of_splitWord_eq rfl (by decide),
    fun s hf => ⟨fun ra hr => ?_, ?_⟩⟩
  · exact exec_of_not_uses_of_ok hf rfl (Config.admits_of_regs_eq rfl hr) rfl
  · exact exec_of_not_uses_of_ok hf rfl rfl rfl

end Sys2Proof.Machine
end

section
/-! How polynomial multiplication and division fail (R102, R103, R107): a length that is too great, or a zero
coefficient, which whatever completes has not seen. -/

namespace Sys2Proof.Machine

/-! ### Every failure is that of a zero coefficient -/

/-- The only fault a computation can raise is DomainError(0). -/
def FailsOnlyAtZero {α : Type} (x : Except Raise α) : Prop := ∀ r, x = .error r → r = Raise.domain 0

theorem failsOnlyAtZero_ok {α : Type} (a : α) : FailsOnlyAtZero (.ok a) := fun _ h => nomatch h

theorem FailsOnlyAtZero.bind {α β : Type} {x : Except Raise α} {f : α → Except Raise β} (hx : FailsOnlyAtZero x)
    (hf : ∀ a, FailsOnlyAtZero (f a)) : FailsOnlyAtZero (x >>= f) := by
  cases x with
  | ok a => exact hf a
  | error r => exact fun r' h => hx r' (congrArg Except.error (Except.error.inj h))

theorem FailsOnlyAtZero.eq_error {α : Type} {x : Except Raise α} (hx : FailsOnlyAtZero x) (h : ∀ a, x ≠ .ok a) :
    x = .error (Raise.domain 0) := by
  cases x with
  | ok a => exact absurd rfl (h a)
  | error r => rw [hx r rfl]

section
variable (t : Tables)

/-- R103: of a byte, `glog` refuses 0 alone. -/
theorem failsOnlyAtZero_glog (b : Byte) : FailsOnlyAtZero (glog t b.toNat) := by
  by_cases hb : b.toNat = 0
  · rw [hb, glog_of_out (.inl (by decide))]
    exact fun r h => (Except.error.inj h).symm
  · have hlt := b.isLt
    rw [glog_of_in (by omega) (by omega)]
    exact failsOnlyAtZero_ok _

theorem failsOnlyAtZero_gmul (a b : Byte) : FailsOnlyAtZero (gmul t a b) :=
  (failsOnlyAtZero_glog t a).bind fun _ => (failsOnlyAtZero_glog t b).bind fun _ => failsOnlyAtZero_ok _

theorem failsOnlyAtZero_mulRow (a : Byte) (b : ByteSeq) : FailsOnlyAtZero (mulRow t a b) := by
  induction b with
  | nil => exact failsOnlyAtZero_ok _
  | cons c b ih => exact (failsOnlyAtZero_gmul t a c).bind fun _ => ih.bind fun _ => failsOnlyAtZero_ok _

theorem failsOnlyAtZero_mulRows (a b : ByteSeq) : FailsOnlyAtZero (mulRows t a b) := by
  induction a with
  | nil => exact failsOnlyAtZero_ok _
  | cons x a ih => exact (failsOnlyAtZero_mulRow t x b).bind fun _ => ih.bind fun _ => failsOnlyAtZero_ok _

theorem failsOnlyAtZero_scaleBy (ratio : Int) (d : ByteSeq) : FailsOnlyAtZero (scaleBy t ratio d) := by
  induction d with
  | nil => exact failsOnlyAtZero_ok _
  | cons c d ih => exact (failsOnlyAtZero_glog t c).bind fun _ => ih.bind fun _ => failsOnlyAtZero_ok _

theorem failsOnlyAtZero_modPass (a d : ByteSeq) : FailsOnlyAtZero (modPass t a d) :=
  (failsOnlyAtZero_glog t _).bind fun _ => (failsOnlyAtZero_glog t _).bind fun _ =>
    (failsOnlyAtZero_scaleBy t _ d).bind fun _ => failsOnlyAtZero_ok _

end

/-! ### What completes has seen no zero coefficient -/

theorem ne_zero_of_gmul {t : Tables} {a b x : Byte} (h : gmul t a b = .ok x) : a ≠ 0 ∧ b ≠ 0 := by
  constructor
  · rintro rfl
    exact nomatch (gmul_zero_left t b).symm.trans h
  · rintro rfl
    exact nomatch (gmul_zero_right t a).symm.trans h

theorem noZero_of_mulRow {t : Tables} {a : Byte} {b row : ByteSeq} (h : mulRow t a b = .ok row) : NoZero b := by
  induction b generalizing row with
  | nil => exact List.forall_mem_nil _
  | cons c b ih =>
    obtain ⟨x, hx, h⟩ := bind_eq_ok h
    obtain ⟨xs, hxs, -⟩ := bind_eq_ok h
    exact List.forall_mem_cons.mpr ⟨(ne_zero_of_gmul hx).2, ih hxs⟩

theorem ne_zero_of_mulRow {t : Tables} {a : Byte} {b row : ByteSeq} (hb : b ≠ []) (h : mulRow t a b = .ok row) :
    a ≠ 0 := by
  obtain ⟨c, b, rfl⟩ := List.exists_cons_of_ne_nil hb
  obtain ⟨x, hx, -⟩ := bind_eq_ok h
  exact (ne_zero_of_gmul hx).1

theorem noZero_left_of_mulRows {t : Tables} {a b out : ByteSeq} (hb : b ≠ []) (h : mulRows t a b = .ok out) :
    NoZero a := by
  induction a generalizing out with
  | nil => exact List.forall_mem_nil _
  | cons x a ih =>
    obtain ⟨row, hrow, h⟩ := bind_eq_ok h
    obtain ⟨rest, hrest, -⟩ := bind_eq_ok h
    exact List.forall_mem_cons.mpr ⟨ne_zero_of_mulRow hb hrow, ih hrest⟩

theorem noZero_right_of_mulRows {t : Tables} {a b out : ByteSeq} (ha : a ≠ []) (h : mulRows t a b = .ok out) :
    NoZero b := by
  obtain ⟨x, a, rfl⟩ := List.exists_cons_of_ne_nil ha
  obtain ⟨row, hrow, -⟩ := bind_eq_ok h
  exact noZero_of_mulRow hrow

/-- R103: a zero coefficient of either factor stops the multiplication. -/
theorem polyMul_of_zero (t : Tables) {a b : ByteSeq} (ha : a ≠ []) (hb : b ≠ []) (h : ¬ (NoZero a ∧ NoZero b)) :
    polyMul t a b = .error (Raise.domain 0) := by
  have hpa := List.length_pos_of_ne_nil ha
  have hpb := List.length_pos_of_ne_nil hb
  have hrows : mulRows t a b = .error (Raise.domain 0) := (failsOnlyAtZero_mulRows t a b).eq_error fun out hout =>
    h ⟨noZero_left_of_mulRows hb hout, noZero_right_of_mulRows ha hout⟩
  rw [polyMul, if_neg (by omega), hrows, error_bind]

theorem polyMod_of_empty (t : Tables) (a : ByteSeq) : polyMod t a [] = .error (Raise.domain 0) := rfl

/-- R107: a zero coefficient of the divisor stops the first pass. -/
theorem polyMod_of_zero (t : Tables) {a d : ByteSeq} (hle : d.length ≤ a.length) (h : ¬ NoZero d) :
    polyMod t a d = .error (Raise.domain 0) := by
  have hd : 0 < d.length := List.length_pos_of_ne_nil fun hnil => h (hnil ▸ List.forall_mem_nil _)
  have hpass : modPass t a d = .error (Raise.domain 0) :=
    (failsOnlyAtZero_modPass t a d).eq_error fun num hnum => h (noZero_of_modPass hnum)
  obtain ⟨k, hk⟩ := Nat.exists_eq_succ_of_ne_zero (n := a.length) (by omega)
  rw [polyMod, if_neg (by omega), hk, modLoop, if_neg (by omega), hpass, error_bind]

/-- R102: the length test comes before any product. -/
theorem checkProduct_of_gt {a b : ByteSeq} {cap : Nat} (ha : a ≠ []) (hb : b ≠ [])
    (h : cap < a.length + b.length - 1) :
    checkProduct a b cap = .error (Raise.length (a.length + b.length - 1)) := by
  rw [checkProduct, if_pos ⟨List.length_pos_of_ne_nil ha, List.length_pos_of_ne_nil hb⟩, checkLength_of_gt h]

theorem checkProduct_of_le {a b : ByteSeq} {cap : Nat} (h : a.length + b.length - 1 ≤ cap) :
    checkProduct a b cap = .ok () := by
  rw [checkProduct, checkLength_of_le h, ite_self]

/-! ### The two faults of polynomial arithmetic as whole next states -/

section
variable {s : State} {i : Instr} (hs : Live s) (ha : s.cfg.admits i = true) (hu : usesTables i = true)
include hs ha hu

theorem exec_of_live_of_domain_zero
    (hr : ruleOf i s.cfg (s.engine.afterInit s.cfg.field) = .error (Raise.domain 0)) :
    exec i s = nextEngine s ((s.engine.afterInit s.cfg.field).recordFault 0x13 (encode i) 0) :=
  exec_of_live_of_error hs ha hu hr

theorem exec_of_live_of_length {len : Nat}
    (hr : ruleOf i s.cfg (s.engine.afterInit s.cfg.field) = .error (Raise.length len)) :
    exec i s = nextEngine s
      ((s.engine.afterInit s.cfg.field).recordFault 0x33 (encode i) (BitVec.ofNat 32 len)) :=
  exec_of_live_of_error hs ha hu hr

end

end Sys2Proof.Machine
end

section
/-! Division over the field is unique (R107). -/

namespace Sys2Proof.Machine

theorem fieldMul_right_cancel {a b c : Byte} (hc : c ≠ 0) (h : fieldMul a c = fieldMul b c) : a = b := by
  obtain ⟨n, -, rfl⟩ := exists_alphaPow_eq hc
  rw [fieldMul_alphaPow_right, fieldMul_alphaPow_right] at h
  exact timesPower_injective n h

theorem xorFront_inj {row a b : ByteSeq} (ha : row.length ≤ a.length) (hb : row.length ≤ b.length)
    (h : xorFront row a = xorFront row b) : a = b := by
  rw [← xorFront_xorFront ha, h, xorFront_xorFront hb]

theorem xorSeq_length {a b : ByteSeq} (h : a.length = b.length) : (xorSeq a b).length = a.length := by
  rw [xorSeq, List.length_zipWith, h, Nat.min_self]

/-- R13: a polynomial is what is left of it when zeros are put in front and stripped. -/
theorem strip_rightAlign {r : ByteSeq} (hr : IsPoly r) (n : Nat) : strip (rightAlign n r) = r := by
  have hzeros (k : Nat) : strip (List.replicate k 0 ++ r) = r := by
    induction k with
    | zero => exact hr
    | succ k ih => exact (strip_zero_cons _).trans ih
  exact hzeros (n - r.length)

/-- The sum of a multiple of `y :: d` and a shorter polynomial, at its leading coefficient and after it. -/
theorem xorSeq_product_cons (x y : Byte) (q : ByteSeq) {d r : ByteSeq} (hr : r.length ≤ d.length) :
    xorSeq (product (x :: q) (y :: d)) (rightAlign (q.length + d.length + 1) r) =
      fieldMul x y :: xorFront (d.map (fieldMul x))
        (xorSeq (product q (y :: d)) (rightAlign (q.length + d.length) r)) := by
  have hlead : 0 ^^^ fieldMul x y ^^^ 0 = fieldMul x y := BitVec.xor_zero.trans BitVec.zero_xor
  rw [product_cons (List.cons_ne_nil y d), rightAlign_succ (by omega), xorFront_xorSeq]
  exact congrArg₂ List.cons hlead rfl

/-- R107: quotient and remainder are determined, coefficient by coefficient from the leading one. -/
theorem quotient_remainder_unique {y : Byte} (hy : y ≠ 0) {d q q' r r' : ByteSeq} (hq : q'.length = q.length)
    (hpoly : IsPoly r) (hpoly' : IsPoly r') (hr : r.length ≤ d.length) (hr' : r'.length ≤ d.length)
    (h : xorSeq (product q (y :: d)) (rightAlign (q.length + d.length) r) =
      xorSeq (product q' (y :: d)) (rightAlign (q.length + d.length) r')) : q' = q ∧ r' = r := by
  induction q generalizing q' with
  | nil =>
    obtain rfl := List.eq_nil_of_length_eq_zero hq
    have hsum {v : ByteSeq} (hv : v.length ≤ d.length) :
        xorSeq (product [] (y :: d)) (rightAlign d.length v) = rightAlign d.length v := by
      have hprod : product [] (y :: d) = zeros (rightAlign d.length v).length := by
        rw [product_nil_left, rightAlign_length hv]; rfl
      rw [hprod, xorSeq_zeros_left]
    rw [List.length_nil, Nat.zero_add, hsum hr, hsum hr'] at h
    refine ⟨rfl, ?_⟩
    rw [← strip_rightAlign hpoly' d.length, ← h, strip_rightAlign hpoly]
  | cons x q ih =>
    obtain ⟨x', q', rfl⟩ := List.exists_cons_of_length_eq_add_one hq
    have hlen : q'.length = q.length := Nat.succ.inj hq
    have hN : (x :: q).length + d.length = q.length + d.length + 1 := by rw [List.length_cons]; omega
    rw [hN, xorSeq_product_cons x y q hr, ← hlen, xorSeq_product_cons x' y q' hr', hlen] at h
    obtain ⟨hhead, htail⟩ := List.cons.inj h
    obtain rfl := fieldMul_right_cancel hy hhead
    have hrow {p v : ByteSeq} (hp : p.length = q.length) (hv : v.length ≤ d.length) :
        (d.map (fieldMul x)).length ≤ (xorSeq (product p (y :: d)) (rightAlign (q.length + d.length) v)).length := by
      have hprod : (product p (y :: d)).length = q.length + d.length := by
        rw [product_length, hp, List.length_cons]; omega
      rw [xorSeq_length (by rw [hprod, rightAlign_length (by omega)]), hprod, List.length_map]
      omega
    obtain ⟨rfl, rfl⟩ := ih hlen (xorFront_inj (hrow rfl hr) (hrow hlen hr') htail)
    exact ⟨rfl, rfl⟩

end Sys2Proof.Machine
end

section
/-! The ends of the generator polynomial (R109), and that of degree 255 (R112). -/

namespace Sys2Proof.Machine

theorem getElem?_generator {n k : Nat} (hk : k ≤ n) : (generator n)[k]? = some (generatorCoeff n (k + 1)) := by
  have hlt : k < (generator n).length := by rw [generator_length]; omega
  rw [generatorCoeff, List.getD_cons_succ, List.getD_eq_getElem _ _ hlt, List.getElem?_eq_getElem hlt]

theorem generatorCoeff_of_gt {n k : Nat} (h : n + 1 < k) : generatorCoeff n k = 0 :=
  List.getD_eq_default _ _ (by rw [List.length_cons, generator_length]; omega)

/-- R109: the constant term is the product of the constant terms of the factors. -/
theorem generatorCoeff_last (n : Nat) : generatorCoeff n (n + 1) = alphaPow (n * (n - 1) / 2) := by
  induction n with
  | zero => rfl
  | succ n ih =>
    rw [generatorCoeff_succ_succ, generatorCoeff_of_gt (Nat.lt_succ_self _), ih, ← alphaPow_add,
      ← Nat.triangle_succ]
    exact BitVec.zero_xor

/-- Where the right side of `generatorCoeff_ratio` vanishes, the next coefficient is zero. -/
theorem generatorCoeff_succ_eq_zero {n k : Nat} (h0 : 0 < k) (hk : k < 255)
    (h : timesPower (generatorCoeff n k) (n + 1) = timesPower (generatorCoeff n k) k) :
    generatorCoeff n (k + 1) = 0 := by
  by_contra hne
  have hratio := generatorCoeff_ratio n k
  rw [h, BitVec.xor_self] at hratio
  have heq := BitVec.xor_eq_zero_iff.mp hratio
  rw [timesPower_add] at heq
  exact timesPower_ne_self hne h0 hk (timesPower_injective 1 heq)

/-- R112: `x^255 + 1` has no middle coefficient: `ALPHA^256 = ALPHA` makes the second one zero, and then
every one after it. -/
theorem generatorCoeff_255 {k : Nat} (hk : k < 254) : generatorCoeff 255 (k + 2) = 0 := by
  induction k with
  | zero =>
    refine generatorCoeff_succ_eq_zero Nat.one_pos (by omega) ?_
    rw [generatorCoeff_one]
    exact alphaPow_periodic 1
  | succ k ih =>
    refine generatorCoeff_succ_eq_zero (by omega) (by omega) ?_
    rw [ih (by omega)]
    exact (timesPower_zero_left _).trans (timesPower_zero_left _).symm

theorem generatorCoeff_255_last : generatorCoeff 255 256 = 1 := by
  have hexp : 255 * (255 - 1) / 2 % 255 = 0 := by decide
  rw [generatorCoeff_last, ← alphaPow_mod, hexp]
  rfl

/-- R112: the generator of degree 255 is `x^255 + 1`. -/
theorem generator_255 : generator 255 = 1 :: (List.replicate 254 0 ++ [1]) := by
  refine List.ext_getElem? fun k => ?_
  match k with
  | 0 => rw [getElem?_generator (Nat.zero_le _), generatorCoeff_one]; rfl
  | k + 1 =>
    rw [List.getElem?_cons_succ]
    rcases Nat.lt_trichotomy k 254 with hk | rfl | hk
    · rw [getElem?_generator (by omega), generatorCoeff_255 hk,
        List.getElem?_append_left (by rwa [List.length_replicate]), List.getElem?_replicate, if_pos hk]
    · rw [getElem?_generator le_rfl, generatorCoeff_255_last,
        List.getElem?_append_right (by rw [List.length_replicate]), List.length_replicate, Nat.sub_self]
      rfl
    · rw [List.getElem?_eq_none (by rw [generator_length]; omega), List.getElem?_eq_none]
      rw [List.length_append, List.length_replicate, List.length_singleton]
      exact hk

end Sys2Proof.Machine
end

section
/-! The statements of polynomial arithmetic (42_poly_arith.md). -/

namespace Sys2Proof.Machine

/-- Settles O44: the length test comes first, and after it a row of products meets the zero coefficient. -/
theorem pmulFaults : Obligations.PmulFaults := by
  intro s rd ra rb hs hrd hra hrb hne hne'
  have ha : s.cfg.admits (.pmul rd ra rb) = true := by simp [Config.admits, Instr.regs, hrd, hra, hrb]
  refine ⟨fun hlong => ?_, fun hfits hzero => ?_⟩
  · refine exec_of_live_of_length hs ha rfl ?_
    rw [ruleOf, rulePmul, Engine.afterInit_p, checkProduct_of_gt hne hne' hlong, error_bind]
  · refine exec_of_live_of_domain_zero hs ha rfl ?_
    rw [ruleOf, rulePmul, Engine.afterInit_p, checkProduct_of_le hfits, ok_bind, polyMul_of_zero _ hne hne' hzero,
      error_bind]

/-- Settles O46: the leading coefficients determine the quotient one after the other, and then the
remainder. -/
theorem remainderIsUnique : Obligations.RemainderIsUnique := by
  intro d q q' r r' hd _ hq hpoly hpoly' hr hr' h
  obtain ⟨y, d, rfl⟩ := List.exists_cons_of_length_pos (Nat.lt_of_le_of_lt (Nat.zero_le _) hr)
  exact quotient_remainder_unique hd hq hpoly hpoly' (Nat.le_of_lt_succ hr) (Nat.le_of_lt_succ hr') h

/-- Settles O47: an empty divisor is refused at once, and one with a zero coefficient in the first pass. -/
theorem pmodFaults : Obligations.PmodFaults := by
  intro s rd ra rb hs hrd hra hrb h
  have ha : s.cfg.admits (.pmod rd ra rb) = true := by simp [Config.admits, Instr.regs, hrd, hra, hrb]
  have hmod (t : Tables) : polyMod t (s.engine.p.read ra) (s.engine.p.read rb) = .error (Raise.domain 0) := by
    rcases h with hempty | ⟨hle, hzero⟩
    · rw [hempty, polyMod_of_empty]
    · exact polyMod_of_zero t hle hzero
  refine exec_of_live_of_domain_zero hs ha rfl ?_
  rw [ruleOf, rulePmod, Engine.afterInit_p, hmod, error_bind]

/-- Settles O48: below degree 255 the running product has no zero coefficient, so it is never refused. -/
theorem genpGivesTheGenerator : Obligations.GenpGivesTheGenerator := by
  refine ⟨fun rd n hn => ?_, fun s rd n hs hr hn => ⟨fun hfits => ?_, fun hlong => ?_⟩⟩
  · exact decode_unsigned_word (i := .genp rd n) (decide_eq_true hn) (by omega) rfl (by cases rd <;> rfl)
  · refine exec_of_live_of_ok hs (Config.admits_of_regs_eq rfl hr) rfl ?_
    rw [ruleOf, ruleGenp, checkLength_of_le hfits, ok_bind, genpoly_of_ready (afterInit_ready hs.1) hn]
    rfl
  · refine exec_of_live_of_length hs (Config.admits_of_regs_eq rfl hr) rfl ?_
    rw [ruleOf, ruleGenp, checkLength_of_gt hlong, error_bind]

/-- Settles O49: the ends by the recurrence of the coefficients, the inner ones by their ratios. -/
theorem generatorCoefficients : Obligations.GeneratorCoefficients := by
  refine ⟨fun n _ => ⟨generator_length n, ?_, ?_⟩, fun n hn => noZero_generator hn, generator_255⟩
  · rw [List.head?_eq_getElem?, getElem?_generator (Nat.zero_le n), generatorCoeff_one]
  · rw [List.getLast?_eq_getElem?, generator_length, Nat.add_sub_cancel, getElem?_generator le_rfl,
      generatorCoeff_last]

end Sys2Proof.Machine
end

section
/-! What `rs_ec` computes over ready tables (R115 to R119): the remainder of the shifted data by the generator,
which completes the data to a multiple of the generator. -/

namespace Sys2Proof.Machine

/-! ### Zeros in sums and products -/

theorem xorSeq_zeros_right (a : ByteSeq) : xorSeq a (zeros a.length) = a := by
  induction a with
  | nil => rfl
  | cons x a ih => exact congrArg₂ List.cons BitVec.xor_zero ih

theorem xorSeq_xorSeq_right {a b : ByteSeq} (h : a.length = b.length) : xorSeq (xorSeq a b) b = a := by
  induction a generalizing b with
  | nil => rfl
  | cons x a ih =>
    obtain ⟨y, b, rfl⟩ := List.exists_cons_of_length_eq_add_one h.symm
    have hhead : x ^^^ y ^^^ y = x := by rw [BitVec.xor_assoc, BitVec.xor_self, BitVec.xor_zero]
    exact congrArg₂ List.cons hhead (ih (Nat.succ.inj h))

theorem product_zeros_left {b : ByteSeq} (hb : b ≠ []) (m : Nat) :
    product (zeros m) b = zeros (m + b.length - 1) := by
  induction m with
  | zero => rw [Nat.zero_add]; exact product_nil_left b
  | succ m ih =>
    have hpos := List.length_pos_of_ne_nil hb
    have hlen : m + 1 + b.length - 1 = m + b.length - 1 + 1 := by omega
    rw [hlen]
    exact (product_zero_cons hb (zeros m)).trans (congrArg (List.cons 0) ih)

theorem rightAlign_add {n : Nat} {r : ByteSeq} (m : Nat) (h : r.length ≤ n) :
    rightAlign (m + n) r = zeros m ++ rightAlign n r := by
  rw [rightAlign, Nat.add_sub_assoc h, List.replicate_add, List.append_assoc]
  rfl

/-! ### The shifted data (R87) -/

theorem shifted_length_le (s : ByteSeq) (k : Nat) : (shifted s k).length ≤ s.length + k := by
  have h := strip_length_le (s ++ zeros k)
  rwa [List.length_append, zeros_length, strip_eq_dropWhile] at h

theorem lt_shifted_length {s : ByteSeq} (h : ∃ c ∈ s, c ≠ 0) (k : Nat) : k < (shifted s k).length := by
  have hpos : 0 < (s.dropWhile (· == 0)).length := by
    obtain ⟨c, hc, hne⟩ := h
    refine List.length_pos_of_ne_nil fun hnil => hne ?_
    exact beq_iff_eq.mp (List.dropWhile_eq_nil_iff.mp hnil c hc)
  rw [shifted_of_exists_ne_zero h, List.length_append, List.length_replicate]
  omega

theorem rightAlign_shifted (s : ByteSeq) (k : Nat) : rightAlign (s.length + k) (shifted s k) = s ++ zeros k := by
  have h := rightAlign_strip (s ++ zeros k)
  rwa [List.length_append, zeros_length, strip_eq_dropWhile] at h

/-- R119: zeros in front of the data are dropped. -/
theorem construct_zeros_append (m : Nat) (data : ByteSeq) (n : Nat) :
    construct (List.replicate m 0 ++ data) n = construct data n := by
  induction m with
  | zero => rfl
  | succ m ih => exact (strip_zero_cons _).trans ih

theorem generator_ne_nil (n : Nat) : generator n ≠ [] := List.ne_nil_of_length_eq_add_one (generator_length n)

theorem polyMod_nil_generator (t : Tables) (n : Nat) : polyMod t [] (generator n) = .ok [] :=
  polyMod_of_short (by rw [generator_length]; exact Nat.succ_pos n)

/-! ### Division and encoding over ready tables -/

section
variable {t : Tables} (ht : t.Ready .standard)
include ht

/-- R107: the remainder, whatever number `m` of quotient coefficients is enough. -/
theorem polyMod_dividesTo {a d : ByteSeq} {m : Nat} (hpoly : IsPoly a) (hd : d ≠ []) (hnd : NoZero d)
    (hm : a.length ≤ m + d.length - 1) :
    ∃ r, polyMod t a d = .ok r ∧ r.length < d.length ∧ DividesTo m a d r := by
  rw [polyMod, if_neg (by simpa using hd)]
  exact modLoop_dividesTo ht hd hnd hpoly (Nat.le_refl _) hm

/-- A multiple of the divisor has the empty remainder, since the remainder is unique. -/
theorem polyMod_of_product {a d q : ByteSeq} (hpoly : IsPoly a) (hd : d ≠ []) (hnd : NoZero d)
    (h : rightAlign (q.length + d.length - 1) a = product q d) : polyMod t a d = .ok [] := by
  have hlen := congrArg List.length h
  rw [rightAlign, List.length_append, List.length_replicate, product_length] at hlen
  obtain ⟨r, hr, hlt, q', hq', hdiv⟩ := polyMod_dividesTo ht (m := q.length) hpoly hd hnd (by omega)
  obtain ⟨y, d, rfl⟩ := List.exists_cons_of_ne_nil hd
  have hN : q.length + (y :: d).length - 1 = q.length + d.length := by rw [List.length_cons]; omega
  have hself : xorSeq (product q (y :: d)) (rightAlign (q.length + d.length) []) = product q (y :: d) := by
    have hzeros : rightAlign (q.length + d.length) [] = zeros (product q (y :: d)).length := by
      rw [product_length, hN, rightAlign, List.append_nil]; rfl
    rw [hzeros, xorSeq_zeros_right]
  rw [h, hN, ← hself] at hdiv
  obtain ⟨-, rfl⟩ := quotient_remainder_unique (hnd y List.mem_cons_self) hq' isPoly_nil
    (polyMod_shape hpoly hr).1 (Nat.zero_le _) (Nat.le_of_lt_succ hlt) hdiv
  exact hr

section
variable {n : Nat} (hn : n ≤ 255)
include hn

/-- R115: `rs_ec` divides the shifted data by the generator and right-aligns the remainder. -/
theorem rsEc_eq_bind (data : ByteSeq) :
    rsEc t data n = polyMod t (shifted data n) (generator n) >>= fun r => .ok (rightAlign n r) := by
  rw [rsEc, genpoly_of_ready ht hn, construct_eq_shifted]
  rfl

/-- R119: an all-zero block has all-zero EC codewords, whatever the generator. -/
theorem rsEc_of_all_zero {data : ByteSeq} (h : ∀ c ∈ data, c = 0) :
    rsEc t data n = .ok (List.replicate n 0) := by
  rw [rsEc_eq_bind ht hn, shifted_of_all_zero h, polyMod_nil_generator, ok_bind, rightAlign, List.append_nil]
  rfl

/-- R117: any other block needs a division, which a zero coefficient of the generator stops. -/
theorem rsEc_of_zero_coefficient {data : ByteSeq} (hg : ¬ NoZero (generator n)) (h : ∃ c ∈ data, c ≠ 0) :
    rsEc t data n = .error (Raise.domain 0) := by
  have hle : (generator n).length ≤ (shifted data n).length := by
    rw [generator_length]; exact lt_shifted_length h n
  rw [rsEc_eq_bind ht hn, polyMod_of_zero t hle hg, error_bind]

/-- R115, R117: without a zero coefficient the result is the remainder, right-aligned. -/
theorem rsEc_of_noZero {data : ByteSeq} {m : Nat} (hg : NoZero (generator n))
    (hm : (shifted data n).length ≤ m + n) :
    ∃ r, polyMod t (shifted data n) (generator n) = .ok r ∧ rsEc t data n = .ok (rightAlign n r) ∧
      r.length ≤ n ∧ IsPoly r ∧ DividesTo m (shifted data n) (generator n) r := by
  have hpoly : IsPoly (shifted data n) := construct_eq_shifted data n ▸ isPoly_construct data n
  obtain ⟨r, hr, hlt, hdiv⟩ := polyMod_dividesTo ht hpoly (generator_ne_nil n) hg (by rwa [generator_length])
  rw [generator_length] at hlt
  exact ⟨r, hr, by rw [rsEc_eq_bind ht hn, hr, ok_bind], Nat.le_of_lt_succ hlt, (polyMod_shape hpoly hr).1, hdiv⟩

/-- R117: exactly when `rs_ec` faults. -/
theorem rsEc_eq_error_iff {data : ByteSeq} :
    (∃ r, rsEc t data n = .error r) ↔ ¬ NoZero (generator n) ∧ ∃ c ∈ data, c ≠ 0 := by
  constructor
  · rintro ⟨r, hr⟩
    constructor
    · intro hg
      obtain ⟨_, -, hok, -⟩ := rsEc_of_noZero ht hn hg (shifted_length_le data n)
      exact nomatch hok.symm.trans hr
    · by_contra! hzero
      exact nomatch (rsEc_of_all_zero ht hn hzero).symm.trans hr
  · rintro ⟨hg, hne⟩
    exact ⟨_, rsEc_of_zero_coefficient ht hn hg hne⟩

/-- R118: the data followed by its EC codewords is a multiple of the generator. -/
theorem exists_product_eq_append {data ec : ByteSeq} (h : rsEc t data n = .ok ec) :
    ∃ q : ByteSeq, q.length = data.length ∧ product q (generator n) = data ++ ec := by
  by_cases hzero : ∀ c ∈ data, c = 0
  · obtain rfl : ec = zeros n := Except.ok.inj (h.symm.trans (rsEc_of_all_zero ht hn hzero))
    have hdata : data = zeros data.length := List.eq_replicate_iff.mpr ⟨rfl, hzero⟩
    refine ⟨zeros data.length, zeros_length _, ?_⟩
    rw [product_zeros_left (generator_ne_nil n), generator_length]
    conv_rhs => rw [hdata]
    exact List.replicate_add _ _ _
  · have hg : NoZero (generator n) := by
      by_contra hg
      exact nomatch (rsEc_of_zero_coefficient ht hn hg (by simpa using hzero)).symm.trans h
    obtain ⟨r, -, hok, hr, -, q, hq, hdiv⟩ := rsEc_of_noZero ht hn hg (shifted_length_le data n)
    obtain rfl : ec = rightAlign n r := Except.ok.inj (h.symm.trans hok)
    refine ⟨q, hq, ?_⟩
    have hec : (rightAlign n r).length = n := rightAlign_length hr
    have hsum : xorSeq (zeros n) (rightAlign n r) = rightAlign n r := by
      simpa only [hec] using xorSeq_zeros_left (rightAlign n r)
    have hlen : (product q (generator n)).length = (zeros data.length ++ rightAlign n r).length := by
      rw [product_length, generator_length, hq, List.length_append, zeros_length, hec]; rfl
    rw [generator_length, ← Nat.add_assoc, Nat.add_sub_cancel, rightAlign_shifted, rightAlign_add _ hr] at hdiv
    calc product q (generator n)
        = xorSeq (data ++ zeros n) (zeros data.length ++ rightAlign n r) := by
          rw [hdiv, xorSeq_xorSeq_right hlen]
      _ = xorSeq data (zeros data.length) ++ xorSeq (zeros n) (rightAlign n r) :=
          List.zipWith_append (zeros_length _).symm
      _ = data ++ rightAlign n r := by
          rw [xorSeq_zeros_right, hsum]

/-- R118: a codeword has remainder zero. -/
theorem polyMod_codeword {data ec : ByteSeq} (h : rsEc t data n = .ok ec) :
    polyMod t (construct (data ++ ec) 0) (generator n) = .ok [] := by
  by_cases hg : NoZero (generator n)
  · obtain ⟨q, hq, hprod⟩ := exists_product_eq_append ht hn h
    refine polyMod_of_product ht (isPoly_construct _ 0) (generator_ne_nil n) hg (q := q) ?_
    rw [← product_length, hprod]
    rw [construct_eq_shifted]
    exact (rightAlign_shifted _ 0).trans (List.append_nil _)
  · have hzero : ∀ c ∈ data, c = 0 := by
      by_contra! hne
      exact nomatch (rsEc_of_zero_coefficient ht hn hg hne).symm.trans h
    obtain rfl : ec = zeros n := Except.ok.inj (h.symm.trans (rsEc_of_all_zero ht hn hzero))
    have hall : ∀ c ∈ data ++ zeros n, c = 0 := fun c hc =>
      (List.mem_append.mp hc).elim (hzero c) List.eq_of_mem_replicate
    rw [construct_eq_shifted, shifted_of_all_zero hall, polyMod_nil_generator]

end

end

end Sys2Proof.Machine
end

section
/-! RSENC and EGET as whole next states (R122, R124), and the statements of Reed-Solomon block encoding
(43_rs_encode.md). -/

namespace Sys2Proof.Machine

/-! ### The commands -/

/-- R112, R117: degree 255 is the one at which `rs_ec` can fault. -/
theorem not_noZero_generator_255 : ¬ NoZero (generator 255) := by
  have hmem : (0 : Byte) ∈ List.replicate 254 0 := List.mem_replicate.mpr ⟨by decide, rfl⟩
  rw [generator_255]
  exact fun h => h 0 (List.mem_cons_of_mem 1 (List.mem_append_left [1] hmem)) rfl

theorem ruleOf_eget_of_ge {k : Nat} {c : Config} {e : Engine} (h : e.eb.length ≤ k) :
    ruleOf (.eget k) c e = .error (Raise.index k) := by
  rw [ruleOf, ruleEget, element_of_ge h, error_bind]

/-- R122: the body of RSENC after its three length tests. -/
theorem ruleOf_rsenc_of_le {n : Nat} {c : Config} {e : Engine} (hgen : n + 1 ≤ c.pmax)
    (hlen : (shifted e.sb n).length ≤ c.pmax) (hcap : n ≤ c.emax) :
    ruleOf (.rsenc n) c e = rsEc e.tables e.sb n >>= fun ec => .ok (e.setEb ec) := by
  rw [ruleOf, ruleRsenc, construct_eq_shifted, checkLength_of_le hgen, checkLength_of_le hlen, checkLength_of_le hcap]
  rfl

/-- R24: where the tables are ready, initialisation changes nothing. -/
theorem Engine.afterInit_of_trdy {s : State} (h : Inv s) (ht : s.engine.trdy = true) :
    s.engine.afterInit s.cfg.field = s.engine :=
  (Engine.tablesInit_of_inv h).symm.trans (Engine.tablesInit_of_ready ht)

theorem Engine.afterInit_faulted (fp : FieldParams) (e : Engine) : (e.afterInit fp).faulted = e.faulted :=
  statusReady_bit1 e.status

section
variable {s : State} {n : Nat} (hs : Live s) (hgen : n + 1 ≤ s.cfg.pmax)
  (hlen : (shifted s.engine.sb n).length ≤ s.cfg.pmax) (hcap : n ≤ s.cfg.emax)
include hs hgen hlen hcap

theorem exec_rsenc_of_ok {ec : ByteSeq} (hec : rsEc (s.engine.afterInit s.cfg.field).tables s.engine.sb n = .ok ec) :
    exec (.rsenc n) s = nextEngine s { s.engine.afterInit s.cfg.field with eb := ec } := by
  rw [exec_next, command_rsenc_of_ok hs hgen hlen hcap hec]
  rfl

/-- R115, R122: below degree 255 RSENC leaves the right-aligned remainder of the shifted data. -/
theorem exec_rsenc_remainder {m : Nat} (hn : n ≤ 254) (hm : (shifted s.engine.sb n).length ≤ m + n) :
    ∃ r, polyMod (s.engine.afterInit s.cfg.field).tables (shifted s.engine.sb n) (generator n) = .ok r ∧
      r.length ≤ n ∧ IsPoly r ∧ DividesTo m (shifted s.engine.sb n) (generator n) r ∧
      exec (.rsenc n) s = nextEngine s { s.engine.afterInit s.cfg.field with eb := rightAlign n r } := by
  obtain ⟨r, hmod, hec, hr, hpoly, hdiv⟩ :=
    rsEc_of_noZero (afterInit_ready hs.1) (by omega) (noZero_generator hn) hm
  exact ⟨r, hmod, hr, hpoly, hdiv, exec_rsenc_of_ok hs hgen hlen hcap hec⟩

end

/-! ### The statements -/

/-- Settles O50: an all-zero block has zeros for EC codewords, and any other block is long enough for a
division by the generator, which has no zero coefficient. -/
theorem rsencGivesTheRemainder : Obligations.RsencGivesTheRemainder := by
  intro s n hs hgen hlen hcap
  refine ⟨fun hzero hn => ?_, fun hne hn => ?_⟩
  · exact exec_rsenc_of_ok hs hgen hlen hcap (rsEc_of_all_zero (afterInit_ready hs.1) hn hzero)
  · have hlong := lt_shifted_length hne n
    obtain ⟨r, -, hr, hpoly, ⟨q, hq, hdiv⟩, hexec⟩ :=
      exec_rsenc_remainder (m := (shifted s.engine.sb n).length - n) hs hgen hlen hcap hn (by omega)
    have hN : (shifted s.engine.sb n).length - n + (generator n).length - 1 = (shifted s.engine.sb n).length := by
      rw [generator_length]; omega
    rw [hN, rightAlign_self] at hdiv
    exact ⟨q, r, hq, hr, hpoly, hdiv, hexec⟩

/-- Settles O51: the three length tests in R122's order, and after them the division by `x^255 + 1`, which has
a zero coefficient. -/
theorem rsencFaults : Obligations.RsencFaults := by
  intro s n hs hn
  refine ⟨fun hgen => ?_, fun hgen hlen => ?_, fun hgen hlen hcap => ?_, fun hgen hlen hcap hn255 hne => ?_⟩
  · refine exec_of_live_of_length hs rfl rfl ?_
    rw [ruleOf, ruleRsenc, checkLength_of_gt hgen, error_bind]
  · refine exec_of_live_of_length hs rfl rfl ?_
    rw [ruleOf, ruleRsenc, construct_eq_shifted, checkLength_of_le hgen, ok_bind, Engine.afterInit_sb,
      checkLength_of_gt hlen, error_bind]
  · refine exec_of_live_of_length hs rfl rfl ?_
    rw [ruleOf, ruleRsenc, construct_eq_shifted, checkLength_of_le hgen, ok_bind, Engine.afterInit_sb,
      checkLength_of_le hlen, ok_bind, checkLength_of_gt hcap, error_bind]
  · have hg : ¬ NoZero (generator n) := hn255 ▸ not_noZero_generator_255
    refine exec_of_live_of_domain_zero hs rfl rfl ?_
    rw [ruleOf_rsenc_of_le (e := s.engine.afterInit s.cfg.field) hgen hlen hcap, Engine.afterInit_sb,
      rsEc_of_zero_coefficient (afterInit_ready hs.1) hn hg hne, error_bind]

/-- Settles O52: EGET reads the element of `EB` or raises the fault of a missing one. -/
theorem egetReadsOrFaults : Obligations.EgetReadsOrFaults := by
  refine ⟨fun k hk => ?_, fun s k hs => ⟨fun hlt => ?_, fun hge => ?_⟩⟩
  · exact decode_unsigned_word (i := .eget k) (decide_eq_true hk) hk rfl rfl
  · rw [exec_next, command_eget_of_lt hs.2 hlt]
    rfl
  · exact exec_of_not_uses_of_error hs (ruleOf_eget_of_ge hge) rfl rfl

/-- Settles O53: below degree 255 the generator has no zero coefficient, and what `rs_ec` appends cancels the
remainder of the shifted data. -/
theorem ecCodewordsCompleteACodeword : Obligations.EcCodewordsCompleteACodeword := by
  intro t data n ht
  have hzero : (∃ c ∈ generator n, c = 0) ↔ ¬ NoZero (generator n) := by simp
  rw [hzero]
  refine ⟨exists_rsEc_eq_ok ht data, fun hn => ⟨rsEc_eq_error_iff ht hn, fun r hr => ?_⟩, fun hn hg => ?_,
    fun hn ec hec => ⟨rsEc_length ht hec, polyMod_codeword ht hn hec, fun _ => exists_product_eq_append ht hn hec⟩⟩
  · obtain ⟨hg, hne⟩ := (rsEc_eq_error_iff ht hn).mp ⟨r, hr⟩
    exact Except.error.inj (hr.symm.trans (rsEc_of_zero_coefficient ht hn hg hne))
  · by_contra hne
    exact hg (noZero_generator (by omega))

/-- Settles O54: no bytes for `n = 0`, no division for zeros, and the construction drops zeros in front. -/
theorem ecOfSpecialBlocks : Obligations.EcOfSpecialBlocks := by
  intro t ht
  refine ⟨fun data => ?_, fun m n hn => ?_, fun m data n _ => ?_⟩
  · obtain ⟨ec, hec⟩ := exists_rsEc_eq_ok ht data (Nat.zero_le 254)
    rw [hec, List.eq_nil_of_length_eq_zero (rsEc_length ht hec)]
  · exact rsEc_of_all_zero ht hn fun c hc => List.eq_of_mem_replicate hc
  · rw [rsEc, rsEc, construct_zeros_append]

/-- Settles O55: GENP and PNEW leave the operands of the division that RSENC makes, and PMOD makes it. -/
theorem rsencFromThePrimitives : Obligations.RsencFromThePrimitives := by
  intro s n hs hreg hn hgen hcap hlen
  have hp0 : s.cfg.has .p0 = true := decide_eq_true (show 0 < s.cfg.npoly by omega)
  have hp1 : s.cfg.has .p1 = true := decide_eq_true (show 1 < s.cfg.npoly by omega)
  have hp2 : s.cfg.has .p2 = true := decide_eq_true (show 2 < s.cfg.npoly by omega)
  obtain ⟨r, hmod, hr, -, -, hrsenc⟩ := exec_rsenc_remainder hs hgen hlen hcap hn (shifted_length_le _ n)
  have hf : (s.engine.afterInit s.cfg.field).faulted = false := (Engine.afterInit_faulted _ _).trans hs.2
  have hgenp := (genpGivesTheGenerator.2 s .p0 n hs hp0 (by omega)).1 hgen
  have hs1 := hs.1.exec hgenp
  have hpnew := (pnewConstructsOrFaults.2 _ .p1 n ⟨hs1, hf⟩ hp1).1 hlen
  have hs2 := hs1.exec hpnew
  have hinit := Engine.afterInit_of_trdy hs2 (statusReady_bit0 s.engine.status)
  have hpmod := exec_pmod_of_ok (rd := .p2) (ra := .p1) (rb := .p0) (v := r) ⟨hs2, hf⟩
    (by simp [Config.admits, Instr.regs, hp0, hp1, hp2]) (by rw [hinit]; exact hmod)
  rw [hinit] at hpmod
  exact ⟨_, _, _, _, hgenp, hpnew, hpmod, hrsenc, hf, hf, hr, rfl, rfl, rfl, rfl, rfl, rfl, rfl, rfl, rfl⟩

end Sys2Proof.Machine
end

section
/-! The host's split and interleave (R128, R130): what they do to the codewords of the blocks, and where each of
them goes. -/

namespace Sys2Proof.Machine

/-! ### The split -/

theorem totalDataCodewords_cons (b : RsBlock) (bs : List RsBlock) :
    totalDataCodewords (b :: bs) = b.dataCodewords + totalDataCodewords bs := rfl

theorem length_drop_of_totalDataCodewords {b : RsBlock} {bs : List RsBlock} {buf : ByteSeq}
    (h : buf.length = totalDataCodewords (b :: bs)) :
    (buf.drop b.dataCodewords).length = totalDataCodewords bs := by
  rw [List.length_drop, h, totalDataCodewords_cons, Nat.add_sub_cancel_left]

theorem splitBlocks_flatten {blocks : List RsBlock} {buf : ByteSeq} (h : buf.length = totalDataCodewords blocks) :
    (splitBlocks blocks buf).flatten = buf := by
  induction blocks generalizing buf with
  | nil => exact (List.eq_nil_of_length_eq_zero h).symm
  | cons b bs ih =>
    rw [splitBlocks, List.flatten_cons, ih (length_drop_of_totalDataCodewords h), List.take_append_drop]

theorem splitBlocks_lengths {blocks : List RsBlock} {buf : ByteSeq} (h : buf.length = totalDataCodewords blocks) :
    (splitBlocks blocks buf).map List.length = blocks.map (·.dataCodewords) := by
  induction blocks generalizing buf with
  | nil => rfl
  | cons b bs ih =>
    rw [splitBlocks, List.map_cons, ih (length_drop_of_totalDataCodewords h), List.length_take, h,
      totalDataCodewords_cons, Nat.min_eq_left (Nat.le_add_right _ _), List.map_cons]

/-! ### The columns of the interleave -/

/-- The codewords of one index, one for each block that is long enough (R130). -/
def column (blocks : List ByteSeq) (i : Nat) : ByteSeq := blocks.filterMap fun b => b[i]?

/-- The columns of the indices below `k`, one after the other. -/
def columns (blocks : List ByteSeq) (k : Nat) : ByteSeq := (List.range k).flatMap (column blocks)

theorem interleavePass_eq_columns (blocks : List ByteSeq) :
    interleavePass blocks = columns blocks (longest blocks) := rfl

theorem column_cons (d : ByteSeq) (blocks : List ByteSeq) (i : Nat) :
    column (d :: blocks) i = d[i]?.toList ++ column blocks i := by
  cases h : d[i]? <;> simp [column, h]

theorem flatMap_toList_eq_take (d : ByteSeq) (k : Nat) :
    ((List.range k).flatMap fun i => d[i]?.toList) = d.take k := by
  induction k with
  | zero => rfl
  | succ k ih => rw [List.range_succ, List.flatMap_append, ih, List.flatMap_singleton, ← List.take_add_one]

/-- The first `k` columns hold the first `k` codewords of every block. -/
theorem columns_perm (blocks : List ByteSeq) (k : Nat) :
    (columns blocks k).Perm (blocks.map (List.take k)).flatten := by
  induction blocks with
  | nil => simp [columns, column]
  | cons d ds ih =>
    have hsplit := List.flatMap_append_perm (List.range k) (fun i => d[i]?.toList) (column ds)
    simp only [flatMap_toList_eq_take, ← column_cons] at hsplit
    exact hsplit.symm.trans (ih.append_left (d.take k))

theorem columns_length (blocks : List ByteSeq) (k : Nat) :
    (columns blocks k).length = (blocks.map fun d => min k d.length).sum := by
  rw [(columns_perm blocks k).length_eq, List.length_flatten, List.map_map]
  exact congrArg List.sum (List.map_congr_left fun d _ => List.length_take)

/-- In its column a codeword stands behind those of the earlier blocks that have one. -/
theorem column_getElem? {blocks : List ByteSeq} {b i : Nat} (hb : b < blocks.length) (hi : i < blocks[b].length) :
    (column blocks i)[(blocks.take b).countP fun d => decide (i < d.length)]? = some blocks[b][i] := by
  have hsplit : blocks = blocks.take b ++ blocks[b] :: blocks.drop (b + 1) := by
    rw [← List.drop_eq_getElem_cons hb, List.take_append_drop]
  have hbefore : (column (blocks.take b) i).length = (blocks.take b).countP fun d => decide (i < d.length) := by
    have hsome (d : ByteSeq) : d[i]?.isSome = decide (i < d.length) := Bool.eq_iff_iff.mpr (by simp)
    simp only [column, List.length_filterMap_eq_countP, hsome]
  have hcolumn : column blocks i =
      column (blocks.take b) i ++ blocks[b][i] :: column (blocks.drop (b + 1)) i := by
    conv_lhs => rw [hsplit, column, List.filterMap_append]
    rw [← column, ← column, column_cons, List.getElem?_eq_getElem hi]
    rfl
  rw [hcolumn, ← hbefore, List.getElem?_append_right le_rfl, Nat.sub_self, List.getElem?_cons_zero]

/-! ### The interleave -/

theorem length_le_longest {blocks : List ByteSeq} {d : ByteSeq} (h : d ∈ blocks) : d.length ≤ longest blocks := by
  induction blocks with
  | nil => cases h
  | cons c blocks ih =>
    rcases List.mem_cons.mp h with rfl | h
    · exact Nat.le_max_left _ _
    · exact (ih h).trans (Nat.le_max_right _ _)

/-- No codeword is lost or repeated. -/
theorem interleavePass_perm (blocks : List ByteSeq) : (interleavePass blocks).Perm blocks.flatten := by
  have hall : blocks.map (List.take (longest blocks)) = blocks :=
    (List.map_congr_left fun _ hd => List.take_of_length_le (length_le_longest hd)).trans (List.map_id' blocks)
  have h := columns_perm blocks (longest blocks)
  rwa [hall] at h

/-- The place of every codeword: behind the columns of the smaller indices, and at its place in its own. -/
theorem interleavePass_getElem? {blocks : List ByteSeq} {b i : Nat} (hb : b < blocks.length)
    (hi : i < blocks[b].length) : (interleavePass blocks)[slotOf blocks b i]? = some blocks[b][i] := by
  have hlt : i < longest blocks := hi.trans_le (length_le_longest (List.getElem_mem hb))
  have hcell := column_getElem? hb hi
  have hpast : ∃ rest, interleavePass blocks = columns blocks i ++ (column blocks i ++ rest) := by
    obtain ⟨j, hj⟩ := Nat.exists_eq_add_of_lt hlt
    refine ⟨((List.range j).map (i + 1 + ·)).flatMap (column blocks), ?_⟩
    rw [interleavePass_eq_columns, columns, hj, Nat.add_right_comm, List.range_add, List.range_succ,
      List.flatMap_append, List.flatMap_append, List.flatMap_singleton, List.append_assoc]
    rfl
  obtain ⟨rest, hpast⟩ := hpast
  rw [hpast, slotOf, ← columns_length, List.getElem?_append_right (Nat.le_add_right _ _), Nat.add_sub_cancel_left,
    List.getElem?_append_left (List.getElem?_eq_some_iff.mp hcell).1, hcell]

theorem interleavePass_singleton (d : ByteSeq) : interleavePass [d] = d := by
  have hcolumn : column [d] = fun i => d[i]?.toList := funext fun i =>
    (column_cons d [] i).trans (List.append_nil _)
  rw [interleavePass_eq_columns, columns, hcolumn, flatMap_toList_eq_take]
  exact List.take_of_length_le (length_le_longest List.mem_cons_self)

theorem interleave_perm (data ec : List ByteSeq) : (interleave data ec).Perm (data.flatten ++ ec.flatten) :=
  (interleavePass_perm data).append (interleavePass_perm ec)

/-- Settles O58: the split is a chain of `take` and `drop`, and the interleave a list of columns. -/
theorem interleaveKeepsEveryCodeword : Obligations.InterleaveKeepsEveryCodeword := by
  refine ⟨fun blocks buf h => ⟨splitBlocks_flatten h, splitBlocks_lengths h⟩,
    fun data ec => ⟨interleave_perm data ec, fun b i hb hi => ?_, fun b i hb hi => ?_⟩, fun d e => ?_⟩
  · have h := interleavePass_getElem? hb hi
    rw [interleave, List.getElem?_append_left (List.getElem?_eq_some_iff.mp h).1, h]
  · rw [interleave, ← (interleavePass_perm data).length_eq, List.getElem?_append_right (Nat.le_add_right _ _),
      Nat.add_sub_cancel_left, interleavePass_getElem? hb hi]
  · rw [interleave, interleavePass_singleton, interleavePass_singleton]

end Sys2Proof.Machine
end

section
/-! A whole encode through the engine (R127 to R130): the blocks' actions one after the other, and the stream
formed from what the reads return. -/

namespace Sys2Proof.Machine

/-! ### The invariant along a run -/

theorem exists_step_of_run_succ {M : Host.Core} {s t : M.State} {k : Nat} (h : M.run (k + 1) s = .next t) :
    ∃ u, M.step s = .next u ∧ M.run k u = .next t := by
  rw [Host.Core.run] at h
  split at h
  · exact ⟨_, ‹_›, h⟩
  · cases h
  · cases h

theorem Inv.core_run {k : Nat} {s t : State} (hs : Inv s) (h : core.run k s = .next t) : Inv t := by
  induction k generalizing s with
  | zero => cases h; exact hs
  | succ k ih =>
    obtain ⟨u, hstep, hrun⟩ := exists_step_of_run_succ (M := core) h
    exact ih (stepKeepsTheInvariant s u hs hstep) hrun

/-! ### The EC codewords of the blocks -/

/-- What `rs_ec` gives for every block and its run of the data (R128, R129). -/
def blockEcs (t : Tables) (blocks : List RsBlock) (buf : ByteSeq) : List (Except Raise ByteSeq) :=
  List.zipWith (fun b d => rsEc t d b.ecLen) blocks (splitBlocks blocks buf)

theorem blockEcs_cons (t : Tables) (b : RsBlock) (bs : List RsBlock) (buf : ByteSeq) :
    blockEcs t (b :: bs) buf =
      rsEc t (buf.take b.dataCodewords) b.ecLen :: blockEcs t bs (buf.drop b.dataCodewords) := rfl

section
variable {t : Tables} (ht : t.Ready .standard)
include ht

theorem exists_blockEcs_eq_map_ok {blocks : List RsBlock} (h : ∀ b ∈ blocks, b.ecLen ≤ 254) (buf : ByteSeq) :
    ∃ ecs : List ByteSeq, blockEcs t blocks buf = ecs.map .ok := by
  induction blocks generalizing buf with
  | nil => exact ⟨[], rfl⟩
  | cons b bs ih =>
    obtain ⟨hb, hbs⟩ := List.forall_mem_cons.mp h
    obtain ⟨ec, hec⟩ := exists_rsEc_eq_ok ht (buf.take b.dataCodewords) hb
    obtain ⟨ecs, hecs⟩ := ih hbs (buf.drop b.dataCodewords)
    exact ⟨ec :: ecs, by rw [blockEcs_cons, hec, hecs, List.map_cons]⟩

theorem lengths_of_blockEcs {blocks : List RsBlock} {buf : ByteSeq} {ecs : List ByteSeq}
    (h : blockEcs t blocks buf = ecs.map .ok) : ecs.map List.length = blocks.map RsBlock.ecLen := by
  induction blocks generalizing buf ecs with
  | nil => rw [List.map_eq_nil_iff.mp h.symm]; rfl
  | cons b bs ih =>
    obtain ⟨ec, ecs, rfl, hec, hecs⟩ := List.map_eq_cons_iff.mp h.symm
    rw [List.map_cons, List.map_cons, rsEc_length ht hec.symm, ih hecs.symm]

end

/-- The host cuts the values that the reads returned into the blocks' EC codewords (R129). -/
theorem collectEc_of_lengths {blocks : List RsBlock} {ecs : List ByteSeq}
    (h : ecs.map List.length = blocks.map RsBlock.ecLen) : collectEc blocks (ecs.flatten.map wordOfByte) = ecs := by
  have hbytes (s : ByteSeq) : (s.map wordOfByte).map (·.setWidth 8) = s := by
    have hbyte : ∀ b : Byte, (wordOfByte b).setWidth 8 = b := fun b => by simp [wordOfByte]
    rw [List.map_map]
    exact (List.map_congr_left fun b _ => hbyte b).trans (List.map_id' s)
  induction blocks generalizing ecs with
  | nil => rw [List.map_eq_nil_iff.mp h]; rfl
  | cons b bs ih =>
    obtain ⟨ec, ecs, rfl, hec, hecs⟩ := List.map_eq_cons_iff.mp h
    have hlen : (ec.map wordOfByte).length = b.ecLen := by rw [List.length_map, hec]
    rw [List.flatten_cons, List.map_append, collectEc, List.take_left' hlen, List.drop_left' hlen, hbytes, ih hecs]

/-! ### The run -/

/-- R127, R129: the lengths of a block and of its EC codewords fit the engine's capacities. -/
def RsBlock.Fits (c : Config) (b : RsBlock) : Prop :=
  b.ecLen ≤ 254 ∧ b.ecLen ≤ c.emax ∧ b.ecLen + 1 ≤ c.pmax ∧ b.dataCodewords ≤ c.smax ∧
    b.dataCodewords + b.ecLen ≤ c.pmax

theorem bufferActions_cons (c : Config) (b : RsBlock) (bs : List RsBlock) (buf : ByteSeq) :
    bufferActions c (b :: bs) buf =
      blockActions c (buf.take b.dataCodewords) b.ecLen ++ bufferActions c bs (buf.drop b.dataCodewords) := rfl

/-- R128, R129: the actions for all blocks return the EC codewords of each, in order. -/
theorem stepsTo_bufferActions {blocks : List RsBlock} {s : State} {buf : ByteSeq} {ecs : List ByteSeq}
    {rest : List HostAction} (hs : Live s) (hfits : ∀ b ∈ blocks, b.Fits s.cfg)
    (hecs : blockEcs (s.engine.tables.fill s.cfg.field) blocks buf = ecs.map .ok)
    (hp : s.pending = bufferActions s.cfg blocks buf ++ rest) :
    ∃ t : State, StepsTo (bufferActions s.cfg blocks buf).length s t ∧ t.pending = rest ∧
      t.returned = s.returned ++ ecs.flatten.map wordOfByte ∧ t.engine.faulted = false := by
  induction blocks generalizing s buf ecs with
  | nil =>
    obtain rfl := List.map_eq_nil_iff.mp hecs.symm
    exact ⟨s, StepsTo.refl s, hp, (List.append_nil _).symm, hs.2⟩
  | cons b bs ih =>
    obtain ⟨ec, ecs, rfl, hec, hecs⟩ := List.map_eq_cons_iff.mp hecs.symm
    obtain ⟨⟨hn, hcap, hgen, hsb, hlen⟩, hfits⟩ := List.forall_mem_cons.mp hfits
    have htake := List.length_take_le b.dataCodewords buf
    have hshift := shifted_length_le (buf.take b.dataCodewords) b.ecLen
    rw [bufferActions_cons, List.append_assoc] at hp
    obtain ⟨w, hblock⟩ := stepsTo_blockActions hs (by omega) hcap (by omega) hgen (by omega) hec.symm hp
    have hinv := hs.1.core_run hblock.core_run_eq
    have hf := (Engine.afterInit_faulted s.cfg.field s.engine).trans hs.2
    have hfill : (s.engine.tables.fill s.cfg.field).fill s.cfg.field = s.engine.tables.fill s.cfg.field :=
      fill_ready _ _
    obtain ⟨t, hrun, hpend, hret, hfaulted⟩ := ih ⟨hinv, hf⟩ hfits (hfill.symm ▸ hecs.symm) rfl
    refine ⟨t, ?_, hpend, ?_, hfaulted⟩
    · rw [bufferActions_cons, List.length_append]
      exact hblock.trans hrun
    · rw [hret, List.flatten_cons, List.map_append, List.append_assoc]

/-- R130: the stream has as many codewords as the table says. -/
theorem interleave_length {blocks : List RsBlock} {data ecs : List ByteSeq}
    (hle : ∀ b ∈ blocks, b.dataCodewords ≤ b.totalCodewords)
    (hdata : data.map List.length = blocks.map (·.dataCodewords))
    (hecs : ecs.map List.length = blocks.map RsBlock.ecLen) :
    (interleave data ecs).length = (blocks.map (·.totalCodewords)).sum := by
  rw [(interleave_perm data ecs).length_eq, List.length_append, List.length_flatten, List.length_flatten, hdata, hecs,
    ← List.sum_map_add]
  exact congrArg List.sum (List.map_congr_left fun b hb => Nat.add_sub_cancel' (hle b hb))

/-- Settles O59: the blocks one after the other, each from the state that the one before left. -/
theorem wholeEncodeGivesTheCodewordStream : Obligations.WholeEncodeGivesTheCodewordStream := by
  intro s table v level buf rest hs htable hbuf hfits hp
  have ht := afterInit_ready hs.1
  obtain ⟨ecs, hecs⟩ := exists_blockEcs_eq_map_ok ht (fun b hb => (hfits b hb).1) buf
  have hlens := lengths_of_blockEcs ht hecs
  obtain ⟨t, hrun, hpend, hret, hfaulted⟩ := stepsTo_bufferActions hs hfits hecs hp
  have hstream : encodedStream table v level buf (ecs.flatten.map wordOfByte) =
      interleave (splitBlocks (table v level) buf) ecs := by
    rw [encodedStream, codewordStream, collectEc_of_lengths hlens]
  refine ⟨ecs, _, t, hecs, hrun.core_run_eq, hpend, hret, hfaulted, hstream, ?_⟩
  rw [hstream]
  exact interleave_length (htable v level).2 (splitBlocks_lengths hbuf) hlens

end Sys2Proof.Machine
end

section
/-! The faults of the commands (R136, R140): how a command enters the fault state, which faults the body of its
rule can raise, and the statements of the exceptions (60_exceptions.md). -/

namespace Sys2Proof.Machine

/-! ### Entering the fault state -/

/-- R136: the cause codes are 1 to 4. -/
theorem Cause.code_toNat_bounds (c : Cause) : 1 ≤ c.code.toNat ∧ c.code.toNat ≤ 4 := by
  cases c <;> decide

/-- R24: after R60 step 4 the tables are ready if they were before, or if the command uses them. -/
theorem Engine.prologue_trdy (fp : FieldParams) (i : Instr) (e : Engine) :
    (e.prologue fp i).trdy = (e.trdy || usesTables i) := by
  cases hu : usesTables i with
  | false => rw [Engine.prologue_of_not_uses hu, Bool.or_false]
  | true => rw [Engine.prologue_trdy_of_uses hu, Bool.or_true]

/-- A completing rule leaves `FAULT` alone, so a command that enters the fault state either names a register the
engine lacks, or is one whose rule raises a fault. -/
theorem exec_fault_cases {i : Instr} {s t : State} (hf : s.engine.faulted = false) (h : exec i s = .next t)
    (ht : t.engine.faulted = true) :
    (s.cfg.admits i = false ∧ t.engine = s.engine.enterFault (encode i) Raise.illegal) ∨
    (s.cfg.admits i = true ∧ ∃ r, ruleOf i s.cfg (s.engine.prologue s.cfg.field i) = .error r ∧
      t.engine = (s.engine.prologue s.cfg.field i).enterFault (encode i) r) := by
  rcases exec_cases h with ⟨hf', -⟩ | ⟨-, ha, rfl⟩ | ⟨-, -, e, he, rfl⟩ | ⟨-, ha, r, hr, rfl⟩
  · rw [hf] at hf'; cases hf'
  · exact .inl ⟨ha, rfl⟩
  · obtain ⟨-, hstatus, -, -⟩ := (ruleOf_effect he).control_frame
    have hsame : e.faulted = s.engine.faulted :=
      (congrArg (·.getLsbD 1) hstatus).trans (Engine.prologue_faulted _ _ _)
    rw [hsame, hf] at ht; cases ht
  · exact .inr ⟨ha, r, hr, rfl⟩

/-! ### The shared steps of the rules -/

/-- A computation that fails did so at its first step or after it. -/
theorem bind_eq_error {ε α β : Type} {x : Except ε α} {f : α → Except ε β} {r : ε} (h : (x >>= f) = .error r) :
    x = .error r ∨ ∃ a, x = .ok a ∧ f a = .error r := by
  cases x with
  | ok a => exact .inr ⟨a, rfl, h⟩
  | error r' => exact .inl (congrArg Except.error (Except.error.inj h))

/-- A computation that fails at its first step, where what follows cannot fail. -/
theorem eq_error_of_bind {ε α β : Type} {x : Except ε α} {g : α → β} {r : ε}
    (h : (x >>= fun a => .ok (g a)) = .error r) : x = .error r :=
  (bind_eq_error h).resolve_right fun ⟨_, _, hok⟩ => nomatch hok

theorem element_eq_error {s : ByteSeq} {k : Nat} {r : Raise} (h : element s k = .error r) : r = Raise.index k := by
  by_cases hk : k < s.length
  · rw [element_of_lt hk] at h; cases h
  · rw [element_of_ge (Nat.le_of_not_lt hk)] at h
    exact (Except.error.inj h).symm

theorem checkLength_eq_error {len cap : Nat} {r : Raise} (h : checkLength len cap = .error r) :
    r = Raise.length len ∧ cap < len := by
  by_cases hle : len ≤ cap
  · rw [checkLength_of_le hle] at h; cases h
  · have hgt := Nat.lt_of_not_le hle
    rw [checkLength_of_gt hgt] at h
    exact ⟨(Except.error.inj h).symm, hgt⟩

theorem checkProduct_eq_error {a b : ByteSeq} {cap : Nat} {r : Raise} (h : checkProduct a b cap = .error r) :
    r = Raise.length (a.length + b.length - 1) := by
  unfold checkProduct at h
  split at h
  · exact (checkLength_eq_error h).1
  · cases h

/-- R76: `glog` fails exactly outside 1 to 255. -/
theorem glog_eq_error {t : Tables} {n : Int} {r : Raise} (h : glog t n = .error r) :
    r = Raise.domain n ∧ (n < 1 ∨ 255 < n) := by
  by_cases hout : n < 1 ∨ 255 < n
  · rw [glog_of_out hout] at h
    exact ⟨(Except.error.inj h).symm, hout⟩
  · rw [glog_of_in (by omega) (by omega)] at h; cases h

section
variable (t : Tables)

theorem failsOnlyAtZero_polyMul (a b : ByteSeq) : FailsOnlyAtZero (polyMul t a b) := by
  unfold polyMul
  split
  · exact failsOnlyAtZero_ok _
  · exact (failsOnlyAtZero_mulRows t a b).bind fun _ => failsOnlyAtZero_ok _

theorem failsOnlyAtZero_modLoop (d : ByteSeq) (k : Nat) (a : ByteSeq) : FailsOnlyAtZero (modLoop t d k a) := by
  induction k generalizing a with
  | zero => exact failsOnlyAtZero_ok _
  | succ k ih =>
    rw [modLoop]
    split
    · exact failsOnlyAtZero_ok _
    · exact (failsOnlyAtZero_modPass t a d).bind fun num => ih (strip num)

theorem failsOnlyAtZero_polyMod (a d : ByteSeq) : FailsOnlyAtZero (polyMod t a d) := by
  unfold polyMod
  split
  · exact fun r h => (Except.error.inj h).symm
  · exact failsOnlyAtZero_modLoop t d _ a

theorem failsOnlyAtZero_genpoly (n : Nat) : FailsOnlyAtZero (genpoly t n) := by
  induction n with
  | zero => exact failsOnlyAtZero_ok _
  | succ n ih => exact ih.bind fun a => failsOnlyAtZero_polyMul t a _

theorem failsOnlyAtZero_rsEc (data : ByteSeq) (n : Nat) : FailsOnlyAtZero (rsEc t data n) :=
  (failsOnlyAtZero_genpoly t n).bind fun g => (failsOnlyAtZero_polyMod t _ g).bind fun _ => failsOnlyAtZero_ok _

end

/-! ### What the body of a rule can raise -/

/-- R136: the faults that the body of each command's rule can raise over ready tables, with their arguments.
GEXP, SCLR, PLEN and ELEN have none. -/
inductive RuleRaises (c : Config) : Instr → Raise → Prop where
  | glog {n : Int} : n < 1 ∨ 255 < n → RuleRaises c (.glog n) (Raise.domain n)
  | spush (b : Nat) : RuleRaises c (.spush b) (Raise.length (c.smax + 1))
  | pnew (rd : PReg) (k len : Nat) : RuleRaises c (.pnew rd k) (Raise.length len)
  | pget (ra : PReg) (k : Nat) : RuleRaises c (.pget ra k) (Raise.index k)
  | pmulLength (rd ra rb : PReg) (len : Nat) : RuleRaises c (.pmul rd ra rb) (Raise.length len)
  | pmulZero (rd ra rb : PReg) : RuleRaises c (.pmul rd ra rb) (Raise.domain 0)
  | pmodZero (rd ra rb : PReg) : RuleRaises c (.pmod rd ra rb) (Raise.domain 0)
  | genpLength (rd : PReg) {n : Nat} : c.pmax < n + 1 → RuleRaises c (.genp rd n) (Raise.length (n + 1))
  | genpZero (rd : PReg) {n : Nat} : 255 < n → RuleRaises c (.genp rd n) (Raise.domain 0)
  | rsencLength (n len : Nat) : RuleRaises c (.rsenc n) (Raise.length len)
  | rsencZero {n : Nat} : 255 ≤ n → RuleRaises c (.rsenc n) (Raise.domain 0)
  | eget (k : Nat) : RuleRaises c (.eget k) (Raise.index k)

/-- The body of each rule, test by test: below degree 256 `genpoly` completes over ready tables, and below
degree 255 so does `rs_ec`. -/
theorem ruleOf_raises {c : Config} {e : Engine} {i : Instr} {r : Raise}
    (hready : usesTables i = true → e.tables.Ready .standard) (h : ruleOf i c e = .error r) : RuleRaises c i r := by
  cases i with
  | glog n =>
    obtain ⟨rfl, hn⟩ := glog_eq_error (eq_error_of_bind h)
    exact .glog hn
  | gexp n => cases h
  | sclr => cases h
  | spush b =>
    simp only [ruleOf, ruleSpush] at h
    split at h
    · cases h; exact .spush b
    · cases h
  | pnew rd k =>
    obtain ⟨rfl, -⟩ := checkLength_eq_error (eq_error_of_bind h)
    exact .pnew rd k _
  | plen ra => cases h
  | pget ra k =>
    obtain rfl := element_eq_error (eq_error_of_bind h)
    exact .pget ra k
  | pmul rd ra rb =>
    rcases bind_eq_error h with h | ⟨⟨⟩, -, h⟩
    · obtain rfl := checkProduct_eq_error h
      exact .pmulLength rd ra rb _
    · obtain rfl := failsOnlyAtZero_polyMul _ _ _ _ (eq_error_of_bind h)
      exact .pmulZero rd ra rb
  | pmod rd ra rb =>
    obtain rfl := failsOnlyAtZero_polyMod _ _ _ _ (eq_error_of_bind h)
    exact .pmodZero rd ra rb
  | genp rd n =>
    rcases bind_eq_error h with h | ⟨⟨⟩, -, h⟩
    · obtain ⟨rfl, hlong⟩ := checkLength_eq_error h
      exact .genpLength rd hlong
    · have hgen := eq_error_of_bind h
      obtain rfl := failsOnlyAtZero_genpoly _ _ _ hgen
      refine .genpZero rd (Nat.lt_of_not_le fun hn => ?_)
      exact nomatch (genpoly_of_ready (hready rfl) hn).symm.trans hgen
  | rsenc n =>
    have hlength {len cap : Nat} (hlen : checkLength len cap = .error r) : RuleRaises c (.rsenc n) r :=
      (checkLength_eq_error hlen).1 ▸ .rsencLength n len
    rcases bind_eq_error h with h | ⟨⟨⟩, -, h⟩
    · exact hlength h
    rcases bind_eq_error h with h | ⟨⟨⟩, -, h⟩
    · exact hlength h
    rcases bind_eq_error h with h | ⟨⟨⟩, -, h⟩
    · exact hlength h
    · have hec := eq_error_of_bind h
      obtain rfl := failsOnlyAtZero_rsEc _ _ _ _ hec
      refine .rsencZero (Nat.lt_of_not_le fun hn => ?_)
      obtain ⟨ec, hok⟩ := exists_rsEc_eq_ok (hready rfl) e.sb hn
      exact nomatch hok.symm.trans hec
  | elen => cases h
  | eget k =>
    obtain rfl := element_eq_error (eq_error_of_bind h)
    exact .eget k

/-! ### The statements -/

/-- Settles O24: fault entry writes the fault record and no more, and before it R60 step 4 touches only the
tables and `TRDY`. -/
theorem faultingCommandHasNoPartialEffect : Obligations.FaultingCommandHasNoPartialEffect := by
  intro i s t hf h ht
  simp only [mem_tableUsers_iff, Bool.decide_eq_true]
  rcases exec_fault_cases hf h ht with ⟨ha, he⟩ | ⟨ha, r, -, he⟩
  · rw [he, ha, Engine.enterFault_trdy, Engine.enterFault_fcause, Bool.false_and, Bool.or_false]
    exact ⟨rfl, rfl, rfl, fun _ => rfl, rfl, rfl, Cause.code_toNat_bounds _⟩
  · obtain ⟨hp, hsb, heb, hres, -, -⟩ := Engine.prologue_frame s.cfg.field i s.engine
    rw [he, ha, Engine.enterFault_trdy, Engine.enterFault_fcause, Bool.true_and]
    exact ⟨hres, hsb, heb, fun q => congrArg (·.read q) hp, rfl, Engine.prologue_trdy _ _ _,
      Cause.code_toNat_bounds _⟩

/-- Settles O25: the cause code is that of a fault which the body of the command's rule can raise. -/
theorem eachCommandRaisesOnlyItsFaults : Obligations.EachCommandRaisesOnlyItsFaults := by
  intro i s t hs ha h ht
  rcases exec_fault_cases hs.2 h ht with ⟨ha', -⟩ | ⟨-, r, hr, he⟩
  · rw [ha] at ha'; cases ha'
  have hcause : t.engine.fcause = r.cause.code := he ▸ Engine.enterFault_fcause _ _ _
  cases ruleOf_raises (fun hu => hs.1.legal.1 ▸ prologue_ready hs.1 hu) hr with
  | glog hn => exact ⟨hcause, hn⟩
  | spush => exact hcause
  | pnew => exact hcause
  | pget => exact hcause
  | pmulLength => exact .inl hcause
  | pmulZero => exact .inr hcause
  | pmodZero => exact hcause
  | genpLength _ hlong => exact .inl ⟨hcause, hlong⟩
  | genpZero _ hn => exact .inr ⟨hcause, hn⟩
  | rsencLength => exact .inl hcause
  | rsencZero hn => exact .inr ⟨hcause, hn⟩
  | eget => exact hcause

end Sys2Proof.Machine
end

section
/-! Reset (R155 to R157): the step it makes, and what only it can do. -/

namespace Sys2Proof.Machine

@[simp] theorem Engine.reset_trdy : Engine.reset.trdy = false := by decide
@[simp] theorem Engine.reset_faulted : Engine.reset.faulted = false := by decide
@[simp] theorem Engine.reset_fcause : Engine.reset.fcause = 0 := by decide

/-- R155: reset is taken in any state, and its whole effect is on the engine. -/
theorem step_of_reset {s : State} {rest : List HostAction} (hp : s.pending = .reset :: rest) :
    step s = .next { s with pending := rest, engine := Engine.reset } := by
  rw [step_of_cons hp, hostAct, hostReset]

/-- Settles O12: outside reset a fault state holds the whole engine, and ready tables stay ready. -/
theorem onlyResetClearsFaultAndReady : Obligations.OnlyResetClearsFaultAndReady := by
  intro s t hstep
  refine ⟨fun hf hf' => ?_, fun ht ht' => ?_⟩
  · by_contra hreset
    have he : t.engine = s.engine := faultStateHoldsTheEngine s t hf hreset hstep
    rw [he, hf] at hf'; cases hf'
  · by_contra hreset
    obtain ⟨-, ht''⟩ := readyTablesNeverChange s t ht hreset hstep
    rw [ht''] at ht'; cases ht'

/-- Settles O17: the state after reset holds the reset engine, read item by item. -/
theorem resetSetsEveryItem : Obligations.ResetSetsEveryItem := by
  intro s rest hp
  exact ⟨_, step_of_reset hp, rfl, Engine.reset_trdy, Engine.reset_faulted, Engine.reset_fcause,
    rfl, rfl, rfl, rfl, rfl, Engine.reset_read⟩

/-- Settles O18: the state after reset differs in the engine and in the action taken only. -/
theorem resetKeepsTheHostsSide : Obligations.ResetKeepsTheHostsSide := by
  intro s t rest hp hstep
  cases hstep.symm.trans (step_of_reset hp)
  exact ⟨rfl, rfl, rfl⟩

end Sys2Proof.Machine
end
